-- ==== Sys2Proof/Word.lean ====
section
/-! DEFINITION. The widths of the machine's values: general registers and addresses of 64 bits (rules R7, R18),
memory cells of 8 bits (rule R30), instruction words of 32 bits (rules R54, R68), and the 32 register numbers
(rules R18, R56 to R58). -/

namespace Sys2Proof

/-- A general register's contents, an effective address or a pc: `XLEN` = `EA_BITS` = 64 (rule R7). -/
abbrev Word := BitVec 64

/-- The contents of one memory cell (rule R30). -/
abbrev Byte := BitVec 8

/-- One instruction at the binary level: `ILEN` = 4 bytes (rules R7, R54, R68). -/
abbrev InstrWord := BitVec 32

/-- A general register's number, 0 to 31 (rule R18): the value of an operand RT, RA or RB (rules R56 to R58). -/
abbrev RegNo := Fin 32

end Sys2Proof
end

