-- ==== Sys2Proof/Config.lean ====
section
/-! DEFINITION. The parameters of the model that the spec leaves OPEN (rule R7, 92_eei_decisions.md "Open parameters"):
`ENDIAN`, `MISALIGN`, `SH_BITS`, `MEMMAP` and `ENC`, as plain data. A configuration is part of what a launch state
gives (rule R106), so it stands in `State` and a claim about every state is a claim about every configuration. -/

namespace Sys2Proof

/-- The fifteen mnemonics of the source, in its order (rule R2). -/
inductive Mnemonic where
  | lbzsx | lbzsux | lhzsx | lhzsux | lhasx | lhasux | lwzsx | lwzsux | lwasx | lwasux | ldsx | ldsux
  | lhbrsx | lwbrsx | ldbrsx
deriving DecidableEq, Repr

/-- The fifteen mnemonics as a list, in the order of rule R2. -/
def Mnemonic.all : List Mnemonic :=
  [.lbzsx, .lbzsux, .lhzsx, .lhzsux, .lhasx, .lhasux, .lwzsx, .lwzsux, .lwasx, .lwasux, .ldsx, .ldsux,
   .lhbrsx, .lwbrsx, .ldbrsx]

/-- A mnemonic's place in the table of rule R2, counted from 0. -/
def Mnemonic.row : Mnemonic → Fin 15
  | .lbzsx => 0 | .lbzsux => 1 | .lhzsx => 2 | .lhzsux => 3 | .lhasx => 4 | .lhasux => 5
  | .lwzsx => 6 | .lwzsux => 7 | .lwasx => 8 | .lwasux => 9 | .ldsx => 10 | .ldsux => 11
  | .lhbrsx => 12 | .lwbrsx => 13 | .ldbrsx => 14

/-- `ENDIAN`, the byte order of data accesses (rules R7, R36, R37). -/
inductive Endian where
  | be   -- the byte at the lowest address is the most significant
  | le   -- the byte at the lowest address is the least significant
deriving DecidableEq, Repr

/-- `MISALIGN`, what a misaligned access does (rules R7, R40). -/
inductive Misalign where
  | perform   -- it is performed exactly as an aligned one
  | fault     -- it raises `AlignmentFault`
  | refuse    -- the model gives it no meaning (the spec's own default)
deriving DecidableEq, Repr

/-- A range of admitted byte addresses, `base` to `base + size - 1`. -/
structure Region where
  base : Nat
  size : Nat
deriving DecidableEq, Repr

/-- A field of the 32-bit instruction word, its lowest bit counted from the least significant end (LSB0, rule R9). That a field is
ONE contiguous run of bits is a DESIGN CHOICE of the model (log entry 21): the spec leaves the places of SH and XO open (rules R54,
R55), and 92_eei_decisions.md D21 calls a contiguous XO the provisional layout's own choice. -/
structure Field where
  lo : Nat
  width : Nat
deriving DecidableEq, Repr

/-- The layout half of `ENC`: where the six fields of rule R55 stand. DESIGN CHOICES of the model, where the spec leaves `ENC` open:
every field is one run of bits, so a layout that splits SH or XO cannot be configured (log entry 21), and every bit that lies
in no field is reserved, which rule R64 says of the provisional layout alone (log entry 22). -/
structure Layout where
  po : Field
  rt : Field
  ra : Field
  rb : Field
  sh : Field
  xo : Field
deriving DecidableEq, Repr

/-- The fields of a layout, in the order of the table of rule R55. -/
def Layout.fields (l : Layout) : List Field :=
  [l.po, l.rt, l.ra, l.rb, l.sh, l.xo]

/-- The two numbers that select one mnemonic, `PO_m` and `XO_m` (rule R55). -/
structure Opcode where
  po : Nat
  xo : Nat
deriving DecidableEq, Repr

/-- `ENC`: the layout, and the pair (`PO_m`, `XO_m`) of every mnemonic, by its row of rule R2. -/
structure Enc where
  layout : Layout
  opcodes : Vector Opcode 15
deriving DecidableEq, Repr

/-- The open parameters of the model (rule R7). `memmap` is `Admit`: any predicate on the 2^64 byte addresses is a
finite list of ranges, and a list can be written out and compared (log entry 6). -/
structure Config where
  endian : Endian
  misalign : Misalign
  shBits : Nat
  memmap : List Region
  enc : Enc
deriving DecidableEq, Repr

end Sys2Proof
end

