-- ==== Sys2Proof/Syntax.lean ====
section
/-! DEFINITION. The instructions: the fifteen loads of rule R2, one constructor per row of spec/opcode_table.json. -/

namespace Sys2Proof

/-- An instruction at the assembly level: a mnemonic of rule R2 with its four operand values RT, RA, RB, SH
(rules R53, R55). RT, RA and RB are register numbers (rules R56 to R58); SH is an unsigned immediate whose width is
the open parameter `SH_BITS` (rule R59), so it is a natural number here and `Instr.wf` bounds it. -/
inductive Instr where
  /-- Load Byte and Zero Shifted Indexed (rule R73). -/
  | lbzsx (rt ra rb : RegNo) (sh : Nat)
  /-- Load Byte and Zero Shifted with Update Indexed (rule R74). -/
  | lbzsux (rt ra rb : RegNo) (sh : Nat)
  /-- Load Halfword and Zero Shifted Indexed (rule R75). -/
  | lhzsx (rt ra rb : RegNo) (sh : Nat)
  /-- Load Halfword and Zero Shifted with Update Indexed (rule R76). -/
  | lhzsux (rt ra rb : RegNo) (sh : Nat)
  /-- Load Halfword Algebraic Shifted Indexed (rule R77). -/
  | lhasx (rt ra rb : RegNo) (sh : Nat)
  /-- Load Halfword Algebraic Shifted with Update Indexed (rule R78). -/
  | lhasux (rt ra rb : RegNo) (sh : Nat)
  /-- Load Word and Zero Shifted Indexed (rule R79). -/
  | lwzsx (rt ra rb : RegNo) (sh : Nat)
  /-- Load Word and Zero Shifted with Update Indexed (rule R80). -/
  | lwzsux (rt ra rb : RegNo) (sh : Nat)
  /-- Load Word Algebraic Shifted Indexed (rule R81). -/
  | lwasx (rt ra rb : RegNo) (sh : Nat)
  /-- Load Word Algebraic Shifted with Update Indexed (rule R82). -/
  | lwasux (rt ra rb : RegNo) (sh : Nat)
  /-- Load Doubleword Shifted Indexed (rule R83). -/
  | ldsx (rt ra rb : RegNo) (sh : Nat)
  /-- Load Doubleword Shifted with Update Indexed (rule R84). -/
  | ldsux (rt ra rb : RegNo) (sh : Nat)
  /-- Load Halfword Byte-Reverse Shifted Indexed (rule R86). -/
  | lhbrsx (rt ra rb : RegNo) (sh : Nat)
  /-- Load Word Byte-Reverse Shifted Indexed (rule R87). -/
  | lwbrsx (rt ra rb : RegNo) (sh : Nat)
  /-- Load Doubleword Byte-Reverse Shifted Indexed (rule R88). -/
  | ldbrsx (rt ra rb : RegNo) (sh : Nat)
deriving DecidableEq, Repr

/-- The shift immediate SH of an instruction (rule R59). -/
def Instr.sh : Instr → Nat
  | .lbzsx _ _ _ sh => sh
  | .lbzsux _ _ _ sh => sh
  | .lhzsx _ _ _ sh => sh
  | .lhzsux _ _ _ sh => sh
  | .lhasx _ _ _ sh => sh
  | .lhasux _ _ _ sh => sh
  | .lwzsx _ _ _ sh => sh
  | .lwzsux _ _ _ sh => sh
  | .lwasx _ _ _ sh => sh
  | .lwasux _ _ _ sh => sh
  | .ldsx _ _ _ sh => sh
  | .ldsux _ _ _ sh => sh
  | .lhbrsx _ _ _ sh => sh
  | .lwbrsx _ _ _ sh => sh
  | .ldbrsx _ _ _ sh => sh

/-- The operand RT of an instruction (rule R56). -/
def Instr.rt : Instr → RegNo
  | .lbzsx rt _ _ _ => rt
  | .lbzsux rt _ _ _ => rt
  | .lhzsx rt _ _ _ => rt
  | .lhzsux rt _ _ _ => rt
  | .lhasx rt _ _ _ => rt
  | .lhasux rt _ _ _ => rt
  | .lwzsx rt _ _ _ => rt
  | .lwzsux rt _ _ _ => rt
  | .lwasx rt _ _ _ => rt
  | .lwasux rt _ _ _ => rt
  | .ldsx rt _ _ _ => rt
  | .ldsux rt _ _ _ => rt
  | .lhbrsx rt _ _ _ => rt
  | .lwbrsx rt _ _ _ => rt
  | .ldbrsx rt _ _ _ => rt

/-- The operand RA of an instruction (rule R57). -/
def Instr.ra : Instr → RegNo
  | .lbzsx _ ra _ _ => ra
  | .lbzsux _ ra _ _ => ra
  | .lhzsx _ ra _ _ => ra
  | .lhzsux _ ra _ _ => ra
  | .lhasx _ ra _ _ => ra
  | .lhasux _ ra _ _ => ra
  | .lwzsx _ ra _ _ => ra
  | .lwzsux _ ra _ _ => ra
  | .lwasx _ ra _ _ => ra
  | .lwasux _ ra _ _ => ra
  | .ldsx _ ra _ _ => ra
  | .ldsux _ ra _ _ => ra
  | .lhbrsx _ ra _ _ => ra
  | .lwbrsx _ ra _ _ => ra
  | .ldbrsx _ ra _ _ => ra

/-- The operand RB of an instruction (rule R58). -/
def Instr.rb : Instr → RegNo
  | .lbzsx _ _ rb _ => rb
  | .lbzsux _ _ rb _ => rb
  | .lhzsx _ _ rb _ => rb
  | .lhzsux _ _ rb _ => rb
  | .lhasx _ _ rb _ => rb
  | .lhasux _ _ rb _ => rb
  | .lwzsx _ _ rb _ => rb
  | .lwzsux _ _ rb _ => rb
  | .lwasx _ _ rb _ => rb
  | .lwasux _ _ rb _ => rb
  | .ldsx _ _ rb _ => rb
  | .ldsux _ _ rb _ => rb
  | .lhbrsx _ _ rb _ => rb
  | .lwbrsx _ _ rb _ => rb
  | .ldbrsx _ _ rb _ => rb

/-- The mnemonic of an instruction (rule R2). -/
def Instr.mnemonic : Instr → Mnemonic
  | .lbzsx _ _ _ _ => .lbzsx
  | .lbzsux _ _ _ _ => .lbzsux
  | .lhzsx _ _ _ _ => .lhzsx
  | .lhzsux _ _ _ _ => .lhzsux
  | .lhasx _ _ _ _ => .lhasx
  | .lhasux _ _ _ _ => .lhasux
  | .lwzsx _ _ _ _ => .lwzsx
  | .lwzsux _ _ _ _ => .lwzsux
  | .lwasx _ _ _ _ => .lwasx
  | .lwasux _ _ _ _ => .lwasux
  | .ldsx _ _ _ _ => .ldsx
  | .ldsux _ _ _ _ => .ldsux
  | .lhbrsx _ _ _ _ => .lhbrsx
  | .lwbrsx _ _ _ _ => .lwbrsx
  | .ldbrsx _ _ _ _ => .ldbrsx

/-- The size of an instruction's one access in bytes (the table of rule R43). -/
def Mnemonic.accessBytes : Mnemonic → Nat
  | .lbzsx | .lbzsux => 1
  | .lhzsx | .lhzsux | .lhasx | .lhasux | .lhbrsx => 2
  | .lwzsx | .lwzsux | .lwasx | .lwasux | .lwbrsx => 4
  | .ldsx | .ldsux | .ldbrsx => 8

/-- Whether a mnemonic is an update form (the last column of the table of rule R2). -/
def Mnemonic.isUpdate : Mnemonic → Bool
  | .lbzsux | .lhzsux | .lhasux | .lwzsux | .lwasux | .ldsux => true
  | .lbzsx | .lhzsx | .lhasx | .lwzsx | .lwasx | .ldsx | .lhbrsx | .lwbrsx | .ldbrsx => false

end Sys2Proof
end

