-- ==== Sys2Proof/WellFormed.lean ====
section
/-! DEFINITION. When an instruction is well formed under a configuration (rule R59), and when a configuration is one the
model admits, among those the spec leaves open (rules R7, R55, R59; log entries 21 and 23). The invalid instruction forms of
rule R62 are NOT ill-formed here: they are instructions that can be written, and executing one is a fault (rule R63). -/

namespace Sys2Proof

/-- SH fits its field: 0 <= SH < 2^`SH_BITS` (rule R59). The three register operands are in range by their type. -/
abbrev Instr.wf (cfg : Config) (i : Instr) : Prop :=
  i.sh < 2 ^ cfg.shBits

/-- Two fields of a layout share no bit. -/
abbrev Field.Disjoint (f g : Field) : Prop :=
  f.lo + f.width ≤ g.lo ∨ g.lo + g.width ≤ f.lo

/-- A layout can hold the operands: register fields of 5 bits (rules R56 to R58), an SH field of `SH_BITS` bits
(rule R59), every field inside the 32-bit word and no two of them overlapping (rules R54, R55). That each field is one run of
bits is the model's choice (log entry 21). -/
abbrev Layout.wf (l : Layout) (shBits : Nat) : Prop :=
  l.rt.width = 5 ∧ l.ra.width = 5 ∧ l.rb.width = 5 ∧ l.sh.width = shBits ∧
  (∀ f ∈ l.fields, f.lo + f.width ≤ 32) ∧ l.fields.Pairwise Field.Disjoint

/-- The opcode numbers fit their fields, and the pairs of the fifteen mnemonics are pairwise different, so that the
decoder is a function; rule R55 assumes nothing else of them. -/
abbrev Enc.opcodesWf (e : Enc) : Prop :=
  (∀ o ∈ e.opcodes.toList, o.po < 2 ^ e.layout.po.width ∧ o.xo < 2 ^ e.layout.xo.width) ∧
  e.opcodes.toList.Nodup

/-- The configurations the model admits: `SH_BITS` at least 1 (92_eei_decisions.md, open parameters), and an `ENC` that
can carry the operands and tells the mnemonics apart (rule R55). `ENDIAN`, `MISALIGN` and `MEMMAP` are free. DESIGN CHOICE (log entry
23): the fitting `ENC` is asked for whatever the level of the program text, so `SH_BITS` is at most 13 here, though rule R106 gives
`ENC` for a binary-level model alone. -/
abbrev Config.wf (c : Config) : Prop :=
  1 ≤ c.shBits ∧ c.enc.layout.wf c.shBits ∧ c.enc.opcodesWf

end Sys2Proof
end

