-- ==== Sys2Proof/Decode.lean ====
section
/-! DEFINITION. Reading an instruction, at the assembly level (a mnemonic with four operand values, rules R55, R65, R67)
and at the binary level (a 32-bit word under the open parameter `ENC`, rules R55, R61, R64, R65), each with its inverse.
Every reading is total and rejects by name (rules R91, R96). -/

namespace Sys2Proof

/-- Why no instruction of the model was read: the refusals "found while decoding" (rule R99, entry 1). -/
inductive DecodeRefusal where
  /-- Not one of the fifteen instructions (rules R65, R96). -/
  | unknownInstruction
  /-- A bit outside every field of the layout is 1 (rule R64 for the provisional layout; for any other, log entry 22). -/
  | reservedBit
  /-- An operand is outside its range (rules R56 to R59). -/
  | operandRange
deriving DecidableEq, Repr

/-- The answer of a reading: an instruction or a named rejection. -/
inductive Decoded where
  | instr (i : Instr)
  | refused (r : DecodeRefusal)
deriving DecidableEq, Repr

/-- The instruction of a mnemonic with its four operands. -/
def Mnemonic.instr (m : Mnemonic) (rt ra rb : RegNo) (sh : Nat) : Instr :=
  match m with
  | .lbzsx => .lbzsx rt ra rb sh
  | .lbzsux => .lbzsux rt ra rb sh
  | .lhzsx => .lhzsx rt ra rb sh
  | .lhzsux => .lhzsux rt ra rb sh
  | .lhasx => .lhasx rt ra rb sh
  | .lhasux => .lhasux rt ra rb sh
  | .lwzsx => .lwzsx rt ra rb sh
  | .lwzsux => .lwzsux rt ra rb sh
  | .lwasx => .lwasx rt ra rb sh
  | .lwasux => .lwasux rt ra rb sh
  | .ldsx => .ldsx rt ra rb sh
  | .ldsux => .ldsux rt ra rb sh
  | .lhbrsx => .lhbrsx rt ra rb sh
  | .lwbrsx => .lwbrsx rt ra rb sh
  | .ldbrsx => .ldbrsx rt ra rb sh

/-- The last check of both readings: the register operands are 0 to 31 (rules R56 to R58) and SH is below
2^`SH_BITS` (rule R59), else `operand_range`. -/
def decodeOperands (cfg : Config) (m : Mnemonic) (rt ra rb sh : Nat) : Decoded :=
  if h : rt < 32 ∧ ra < 32 ∧ rb < 32 ∧ sh < 2 ^ cfg.shBits then
    .instr (m.instr ⟨rt, h.1⟩ ⟨ra, h.2.1⟩ ⟨rb, h.2.2.1⟩ sh)
  else .refused .operandRange

/-! The binary level. -/

/-- The content of a field of an instruction word. -/
def Field.get (f : Field) (w : InstrWord) : Nat :=
  w.toNat / 2 ^ f.lo % 2 ^ f.width

/-- A word that holds `v` in a field and 0 elsewhere: `v * 2^lo` (rule R55). -/
def Field.put (f : Field) (v : Nat) : InstrWord :=
  BitVec.ofNat 32 (v * 2 ^ f.lo)

/-- The word whose fields hold the given values and whose other bits are 0. -/
def packFields (fs : List (Field × Nat)) : InstrWord :=
  fs.foldr (fun p w => p.1.put p.2 ||| w) 0

/-- The bits of the word that some field covers; every other bit is reserved (rule R64 for the provisional layout; for any other, log
entry 22). -/
def Layout.covered (l : Layout) : InstrWord :=
  packFields (l.fields.map fun f => (f, 2 ^ f.width - 1))

/-- The pair (`PO_m`, `XO_m`) of a mnemonic under `ENC` (rule R55). -/
def Enc.opcode (e : Enc) (m : Mnemonic) : Opcode :=
  e.opcodes[m.row.val]

/-- The pair of opcode fields that a word holds. -/
def Layout.opcodeOf (l : Layout) (w : InstrWord) : Opcode :=
  ⟨l.po.get w, l.xo.get w⟩

/-- The decoder of the binary level: `ENC` selects the mnemonic (rules R61, R65), a reserved bit that is 1 is refused
(rule R64), and the operands are plain unsigned numbers (rule R60). The order of the three rejections is that of
rule R99, entry 1 (DEDUCED, log entry 11). DESIGN CHOICE (log entry 22): rule R64 speaks of the last bit of the provisional layout
alone, and the model refuses a 1 in any bit outside the six fields of ANY layout in the same way. -/
def decode (cfg : Config) (w : InstrWord) : Decoded :=
  let l := cfg.enc.layout
  match Mnemonic.all.find? (fun m => cfg.enc.opcode m == l.opcodeOf w) with
  | none => .refused .unknownInstruction
  | some m =>
    if w &&& ~~~l.covered = 0 then
      decodeOperands cfg m (l.rt.get w) (l.ra.get w) (l.rb.get w) (l.sh.get w)
    else .refused .reservedBit

/-- The encoder: every field at its place, every reserved bit 0 (the `word = …` line of rule R55). -/
def encode (cfg : Config) (i : Instr) : InstrWord :=
  let l := cfg.enc.layout
  let o := cfg.enc.opcode i.mnemonic
  packFields [(l.po, o.po), (l.rt, i.rt), (l.ra, i.ra), (l.rb, i.rb), (l.sh, i.sh), (l.xo, o.xo)]

/-! The assembly level. -/

/-- One instruction as the assembler is given it: a mnemonic's name and four numbers (rules R55, R67). -/
structure AsmLine where
  name : String
  rt : Nat
  ra : Nat
  rb : Nat
  sh : Nat
deriving DecidableEq, Repr

/-- A mnemonic as it is written: lower case (rules R2, R67). -/
def Mnemonic.name : Mnemonic → String
  | .lbzsx => "lbzsx"
  | .lbzsux => "lbzsux"
  | .lhzsx => "lhzsx"
  | .lhzsux => "lhzsux"
  | .lhasx => "lhasx"
  | .lhasux => "lhasux"
  | .lwzsx => "lwzsx"
  | .lwzsux => "lwzsux"
  | .lwasx => "lwasx"
  | .lwasux => "lwasux"
  | .ldsx => "ldsx"
  | .ldsux => "ldsux"
  | .lhbrsx => "lhbrsx"
  | .lwbrsx => "lwbrsx"
  | .ldbrsx => "ldbrsx"

/-- The instruction that an assembly line names; a name that is none of the fifteen is unknown (rules R65, R90), an
operand outside its range is refused (rule R59). -/
def assemble (cfg : Config) (l : AsmLine) : Decoded :=
  match Mnemonic.all.find? (fun m => m.name == l.name) with
  | none => .refused .unknownInstruction
  | some m => decodeOperands cfg m l.rt l.ra l.rb l.sh

/-- The assembly line of an instruction. -/
def disassemble (i : Instr) : AsmLine :=
  ⟨i.mnemonic.name, i.rt, i.ra, i.rb, i.sh⟩

/-- A line as it is written: `mnemonic RT,RA,RB,SH`, each operand a plain decimal number (rule R67). -/
def AsmLine.chars (l : AsmLine) : List Char :=
  l.name.toList ++ ' ' :: Nat.toDigits 10 l.rt ++ ',' :: Nat.toDigits 10 l.ra ++
    ',' :: Nat.toDigits 10 l.rb ++ ',' :: Nat.toDigits 10 l.sh

/-- The text before the first `c`, and the text after it; none where there is no `c`. -/
def splitAtChar (c : Char) : List Char → Option (List Char × List Char)
  | [] => none
  | d :: rest =>
    if d = c then some ([], rest)
    else (splitAtChar c rest).map fun p => (d :: p.1, p.2)

/-- A plain decimal number: one or more decimal digits. -/
def parseNumber (cs : List Char) : Option Nat :=
  if cs ≠ [] ∧ cs.all Char.isDigit then some (Nat.ofDigitChars 10 cs 0) else none

/-- The line that a text spells, exactly as rule R67 writes one; none for any other text (log entry 14). -/
def parseLine (cs : List Char) : Option AsmLine := do
  let (name, ops) ← splitAtChar ' ' cs
  let (rt, ops) ← splitAtChar ',' ops
  let (ra, ops) ← splitAtChar ',' ops
  let (rb, sh) ← splitAtChar ',' ops
  return ⟨String.ofList name, ← parseNumber rt, ← parseNumber ra, ← parseNumber rb, ← parseNumber sh⟩

/-! The configuration that `State.reset` holds. -/

/-- The provisional layout of rule R55, the spec's own choice with no source (92_eei_decisions.md D21). -/
def Layout.provisional : Layout where
  po := ⟨26, 6⟩
  rt := ⟨21, 5⟩
  ra := ⟨16, 5⟩
  rb := ⟨11, 5⟩
  sh := ⟨9, 2⟩
  xo := ⟨1, 8⟩

/-- Placeholder opcode numbers: `PO_m` = 0 and `XO_m` = the row of rule R2 counted from 0. The spec gives none
(rule R61): DESIGN CHOICE, log entry 8; nothing about real machine code follows from them. -/
def placeholderOpcodes : Vector Opcode 15 :=
  #v[⟨0, 0⟩, ⟨0, 1⟩, ⟨0, 2⟩, ⟨0, 3⟩, ⟨0, 4⟩, ⟨0, 5⟩, ⟨0, 6⟩, ⟨0, 7⟩, ⟨0, 8⟩, ⟨0, 9⟩, ⟨0, 10⟩, ⟨0, 11⟩,
     ⟨0, 12⟩, ⟨0, 13⟩, ⟨0, 14⟩]

/-- The configuration at reset: the spec's defaults `MISALIGN` = `refuse` (rule R40) and `SH_BITS` = 2 (rule R59); big-endian
(log entry 3), every address admitted (log entry 6) and the placeholder `ENC` (log entry 8) are DESIGN CHOICES. -/
def Config.initial : Config where
  endian := .be
  misalign := .refuse
  shBits := 2
  memmap := [⟨0, 2 ^ 64⟩]
  enc := ⟨Layout.provisional, placeholderOpcodes⟩

/-- The instruction the binary decoder reads, under the configuration of reset, from a word of `nbits` bits. -/
def decodeTableWord (nbits w : Nat) : Option Instr :=
  match decode Config.initial (BitVec.ofNat 32 (w % 2 ^ nbits)) with
  | .instr i => some i
  | .refused _ => none

end Sys2Proof
end

