-- ==== Sys2Proof/Machine/Memory.lean ====
section
/-! DEFINITION. Memory (rule R30): an array of 8-bit cells indexed by a 64-bit byte address, held as a list of
(address, byte) pairs in one canonical form. No instruction in scope writes it (rule R32); `Memory.setByte` builds the
contents that a launch state gives (rule R106). Which addresses exist is not memory's: it is `Admit`
(Machine/Ops.lean). -/

namespace Sys2Proof.Machine

/-- The listed cells. -/
abbrev Memory := List Host.Cell

/-- What an admitted address that is not listed reads as: 0. The launch state gives every admitted byte (rule R34)
and the spec states no value: DESIGN CHOICE, log entry 7. -/
def unlistedByte : Byte := 0

/-- `byte(a)`: the content of the cell at an address (rule R10). -/
def Memory.byte : Memory → Nat → Byte
  | [], _ => unlistedByte
  | (k, b) :: rest, a => if k = a then b else Memory.byte rest a

/-- The memory that differs from the given one in the cell at `a`, which holds `b`: how a launch state's contents are
written down (rule R106). -/
def Memory.setByte : Memory → Nat → Byte → Memory
  | [], a, b => if b = unlistedByte then [] else [(a, b)]
  | (k, c) :: rest, a, b =>
    if a < k then (if b = unlistedByte then (k, c) :: rest else (a, b) :: (k, c) :: rest)
    else if a = k then (if b = unlistedByte then rest else (a, b) :: rest)
    else (k, c) :: Memory.setByte rest a b

/-- The memory with consecutive cells from `a` on holding the given bytes, as an image of a launch state is listed. -/
def Memory.setBytes (mem : Memory) (a : Nat) : List Byte → Memory
  | [] => mem
  | b :: bs => Memory.setBytes (mem.setByte a b) (a + 1) bs

/-- The canonical form: addresses strictly rising and below 2^64 (rules R30, R42), no cell that holds what an unlisted
address reads as. Two memories in this form that read alike are equal. -/
abbrev Memory.wf (mem : Memory) : Prop :=
  mem.Pairwise (fun c d => c.1 < d.1) ∧ ∀ c ∈ mem, c.2 ≠ unlistedByte ∧ c.1 < 2 ^ 64

end Sys2Proof.Machine
end

