-- ==== Sys2Proof/Machine/State.lean ====
section
/-! DEFINITION. The state of the machine (rule R17), with what a launch state gives beside it (rule R106: the program
text and the configuration), as plain data; the reasons a step stops (rule R91); the state at reset. -/

namespace Sys2Proof.Machine

/-- What a general register holds. A launch state gives each register "as a 64-bit value or as no value" (rule R23), so
both are contents of the spec's own state. `State.reset` gives every register a value (log entry 1). -/
inductive RegContent where
  | value (w : Word)
  | noValue
deriving DecidableEq, Repr

/-- The faults of rule R91: "the hardware does something this spec does not follow". Each is terminal and precise
(rules R100, R102). -/
inductive Fault where
  /-- An invalid instruction form was executed: raised by the six update forms when RA = 0 or RA = RT, with the mnemonic
  and the operands RT and RA (rules R62, R63, R92). Safe: hardware may trap or go on, and no value is claimed. -/
  | invalidForm (m : Mnemonic) (rt ra : RegNo)
  /-- A cell of a load's access is not admitted: raised by all fifteen loads, with EA, the address of the access's first
  byte (rules R42, R93). Safe: hardware may trap or return a value. -/
  | storageFault (ea : Word)
  /-- A misaligned access under `MISALIGN` = `fault`: raised by the halfword, word and doubleword loads, with EA (rules
  R40, R94). Safe: hardware may perform the access. -/
  | alignmentFault (ea : Word)
  /-- A source register holds "no value": raised by all fifteen loads, for RA (where it is read) before RB, with the
  register's number (rules R23, R97, R99). It needs a launch state that gives a register as "no value": no run from
  `State.reset` meets it. Safe: on hardware the register holds some bits. -/
  | uninitRead (i : RegNo)
deriving DecidableEq, Repr

/-- The refusals of rule R91: "this spec gives the case no meaning"; and its `End`, which the host's three outcomes have no
arm of their own for (log entry 10). -/
inductive Refusal where
  /-- An instruction that has no meaning in the model yet; raised by no instruction of this model. Safe. -/
  | notModelled (mnemonic : String)
  /-- A misaligned access under `MISALIGN` = `refuse`: by the halfword, word and doubleword loads (rule R40). Safe. -/
  | misaligned
  /-- The access runs past address 2^64 - 1: by the halfword, word and doubleword loads (rules R41, R95). Safe. -/
  | addressWrap
  /-- An operand outside its range, for example SH >= 2^`SH_BITS`: by the fetch (rule R59). Safe. -/
  | operandRange
  /-- A reserved bit of the layout is 1: by the fetch of a binary word (rule R64 for the provisional layout; for any other, log entry
  22). Safe. -/
  | reservedBit
  /-- No instruction of the spec stands at pc: by the fetch (rules R65, R96). Safe. -/
  | unknownInstruction
  /-- `End`: pc is the end address of the program text, by the fetch (rules R91, R109). Not a failure: it is the one final
  outcome, and the state it is reached in is the run's end state. Safe: it says nothing of what hardware does there. -/
  | programEnd
deriving DecidableEq, Repr

/-- The program text (92_eei_decisions.md D14): a list of instructions at the assembly level or of words at the binary
level. It is not read through `byte(a)` (rules R31, R39). -/
inductive Text where
  | asm (lines : List AsmLine)
  | binary (words : List InstrWord)
deriving DecidableEq, Repr

/-- The machine. `regs`, `pc` and `mem` are the state of rule R17; `base` and `text` (the program text) and `cfg` (the
configuration) are the parameters that a launch state gives beside it (rule R106), held here as plain data and changed by
no step (log entry 9). -/
structure State where
  regs : Vector RegContent 32
  pc : Word
  mem : Memory
  base : Word
  text : Text
  cfg : Config
deriving DecidableEq, Repr

/-- The state at reset. The spec has no reset and no reset value (rules R34, R106): every register 0 (log entry 1), pc and
base 0 and an empty program text (log entry 2), no cell listed (log entry 7), the configuration of `Config.initial`. -/
def State.reset : State where
  regs := Vector.replicate 32 (.value 0)
  pc := 0
  mem := []
  base := 0
  text := .binary []
  cfg := Config.initial

end Sys2Proof.Machine
end

