-- ==== Sys2Proof/Machine/Ops.lean ====
section
/-! DEFINITION. The named operations over registers and memory: reading and writing a general register, advancing pc, the
read primitive `MemRead` with the checks that come before it, and the conversions of a loaded element.

TAKING AN EXCEPTION AND RETURNING FROM ONE: the spec has neither. A fault or a refusal is terminal, "no state is saved
anywhere, control goes nowhere, pc stays at the instruction that stopped" (rule R100), and "there is no
return-from-interrupt instruction in scope and no handler in the model" (rule R101). So the outcomes of `Result` are all there
is, and no operation stands here for them. -/

namespace Sys2Proof.Machine

/-- What a part of a step answers: a value, a fault or a refusal (rule R91). -/
abbrev Result (α : Type) := Host.Outcome α Fault Refusal

/-- One part of a step after another: the first stop ends the instruction (rule R99). -/
def Result.andThen {α β : Type} (r : Result α) (k : α → Result β) : Result β :=
  match r with
  | .next a => k a
  | .fault f => .fault f
  | .refused f => .refused f

/-! Registers. -/

/-- What general register `i` holds; register 0 is an ordinary register (rules R18, R19). -/
def State.reg (s : State) (i : RegNo) : RegContent :=
  s.regs[i.val]

/-- `x[i] <- w`: a write replaces all 64 bits (rule R22). -/
def State.setReg (s : State) (i : RegNo) (w : Word) : State :=
  { s with regs := s.regs.set i.val (.value w) }

/-- `pc <- pc + 4`, modulo 2^64 (rule R28). -/
def State.advance (s : State) : State :=
  { s with pc := s.pc + 4 }

/-! The read primitive. -/

/-- The number that a list of bytes stands for, the first byte least significant. -/
def leNat : List Byte → Nat
  | [] => 0
  | b :: bs => b.toNat + 256 * leNat bs

/-- The cells of an access, `byte(a)` to `byte(a+n-1)` in rising address order (rule R35). -/
def Memory.cells (mem : Memory) (a n : Nat) : List Byte :=
  (List.range n).map fun i => mem.byte (a + i)

/-- `MemRead(a, n)`: under `LE` the byte at the lowest address is the least significant, under `BE` the most significant
(rule R36). -/
def memRead (e : Endian) (mem : Memory) (a n : Nat) : BitVec (8 * n) :=
  match e with
  | .le => BitVec.ofNat (8 * n) (leNat (mem.cells a n))
  | .be => BitVec.ofNat (8 * n) (leNat (mem.cells a n).reverse)

/-- An address lies in a range. -/
def Region.admits (r : Region) (a : Nat) : Bool :=
  r.base ≤ a && a < r.base + r.size

/-- `Admit(a)`: the byte address exists (rule R42). -/
def admitted (cfg : Config) (a : Nat) : Bool :=
  cfg.memmap.any fun r => Region.admits r a

/-- An access is admitted when all its `n` cells are (rule R42). -/
def admitAll (cfg : Config) (a n : Nat) : Bool :=
  (List.range n).all fun i => admitted cfg (a + i)

/-- The checks of an access of `n` bytes at EA and then the read, in the order of rule R99: wrap (rule R41), alignment (rule
R40), admission (rule R42), `MemRead` (rule R36). -/
def loadElement (s : State) (ea : Word) (n : Nat) : Result (BitVec (8 * n)) :=
  if ea.toNat + n > 2 ^ 64 then .refused .addressWrap
  else if ea.toNat % n ≠ 0 ∧ s.cfg.misalign = .fault then .fault (.alignmentFault ea)
  else if ea.toNat % n ≠ 0 ∧ s.cfg.misalign = .refuse then .refused .misaligned
  else if admitAll s.cfg ea.toNat n then .next (memRead s.cfg.endian s.mem ea.toNat n)
  else .fault (.storageFault ea)

/-! Conversions of a loaded element (rule R10). -/

/-- `zext_64(v)`. -/
def zext64 {w : Nat} (v : BitVec w) : Word :=
  v.setWidth 64

/-- `sext_64(v)`: the source's `EXTS`, copies of the element's most significant bit (rule R11). -/
def sext64 {w : Nat} (v : BitVec w) : Word :=
  v.signExtend 64

/-- The bytes of an element, the least significant first. -/
def bytesOf (n : Nat) (v : BitVec (8 * n)) : List Byte :=
  (List.range n).map fun i => v.extractLsb' (8 * i) 8

/-- `brev_n(v)`: the bytes of `v` in the opposite order (rules R10, R85). -/
def brev (n : Nat) (v : BitVec (8 * n)) : BitVec (8 * n) :=
  BitVec.ofNat (8 * n) (leNat (bytesOf n v).reverse)

end Sys2Proof.Machine
end

