-- ==== Sys2Proof/Machine/Operands.lean ====
section
/-! DEFINITION. The operand forms: a register read as a source, `(RA|0)`, the shifted index, and the two effective addresses
(rules R12, R13, R69, R70). There is no other form (rule R60). -/

namespace Sys2Proof.Machine

/-- A read of general register `i` as a source: "no value" ends the instruction (rule R97). -/
def readReg (s : State) (i : RegNo) : Result Word :=
  match s.reg i with
  | .value w => .next w
  | .noValue => .fault (.uninitRead i)

/-- `GPRZ(RA)`, the source's `(RA|0)`: 0 where the operand is 0, and then register 0 is not read (rules R12, R19). -/
def gprz (s : State) (ra : RegNo) : Result Word :=
  if ra = 0 then .next 0 else readReg s ra

/-- `(RB) << (SH+1)`: the index alone is shifted, and the bits shifted out at the top are lost (rules R13, R69). -/
def shiftedIndex (x : Word) (sh : Nat) : Word :=
  x <<< (sh + 1)

/-- EA of a non-update form: `(RA|0) + ((RB) << (SH+1))` modulo 2^64; RA is read before RB (rules R69, R99). -/
def indexedEA (s : State) (ra rb : RegNo) (sh : Nat) : Result Word :=
  Result.andThen (gprz s ra) fun b =>
  Result.andThen (readReg s rb) fun x =>
  .next (b + shiftedIndex x sh)

/-- EA of an update form: `(RA) + ((RB) << (SH+1))` modulo 2^64; RA is read before RB (rules R70, R99). -/
def updateEA (s : State) (ra rb : RegNo) (sh : Nat) : Result Word :=
  Result.andThen (readReg s ra) fun b =>
  Result.andThen (readReg s rb) fun x =>
  .next (b + shiftedIndex x sh)

end Sys2Proof.Machine
end

