-- ==== Sys2Proof/Machine/Load.lean ====
section
/-! DEFINITION. The two shapes of a load, in the steps of rule R71: the non-update form and the update form. A family file
gives each instruction its access size and its conversion. -/

namespace Sys2Proof.Machine

/-- A non-update load of `n` bytes: EA by rule R69, the checked read, RT, pc (rule R71, steps 2 to 6 and 8). -/
def loadIndexed (n : Nat) (ext : BitVec (8 * n) → Word) (rt ra rb : RegNo) (sh : Nat) (s : State) : Result State :=
  Result.andThen (indexedEA s ra rb sh) fun ea =>
  Result.andThen (loadElement s ea n) fun v =>
  .next (s.setReg rt (ext v)).advance

/-- An update-form load of `n` bytes: the invalid forms first (rules R62, R63), then EA by rule R70, the checked read, RT, RA and
pc (rule R71, steps 1 to 8; the two writes in the source's order, rules R14, R111). -/
def loadUpdate (m : Mnemonic) (n : Nat) (ext : BitVec (8 * n) → Word) (rt ra rb : RegNo) (sh : Nat) (s : State) :
    Result State :=
  if ra = 0 ∨ ra = rt then .fault (.invalidForm m rt ra)
  else
    Result.andThen (updateEA s ra rb sh) fun ea =>
    Result.andThen (loadElement s ea n) fun v =>
    .next ((s.setReg rt (ext v)).setReg ra ea).advance

end Sys2Proof.Machine
end

