-- ==== Sys2Proof/Machine/LoadByteReverse.lean ====
section
/-! DEFINITION. The three byte-reverse loads of 41_load_byte_reverse_shifted.md (rules R86 to R88), one meaning each over
the shared load operation. -/

namespace Sys2Proof.Machine

/-- `lhbrsx RT,RA,RB,SH`: Load Halfword Byte-Reverse Shifted Indexed (rule R86). -/
def execLhbrsx (rt ra rb : RegNo) (sh : Nat) (s : State) : Result State :=
  loadIndexed 2 (fun v => zext64 (brev 2 v)) rt ra rb sh s

/-- `lwbrsx RT,RA,RB,SH`: Load Word Byte-Reverse Shifted Indexed (rule R87). -/
def execLwbrsx (rt ra rb : RegNo) (sh : Nat) (s : State) : Result State :=
  loadIndexed 4 (fun v => zext64 (brev 4 v)) rt ra rb sh s

/-- `ldbrsx RT,RA,RB,SH`: Load Doubleword Byte-Reverse Shifted Indexed (rule R88). -/
def execLdbrsx (rt ra rb : RegNo) (sh : Nat) (s : State) : Result State :=
  loadIndexed 8 (fun v => brev 8 v) rt ra rb sh s

end Sys2Proof.Machine
end

