-- ==== Sys2Proof/Machine/LoadShiftedIndexed.lean ====
section
/-! DEFINITION. The twelve loads of 40_load_shifted_indexed.md (rules R73 to R84), one meaning each over the two shared
load operations. -/

namespace Sys2Proof.Machine

/-- `lbzsx RT,RA,RB,SH`: Load Byte and Zero Shifted Indexed (rule R73). -/
def execLbzsx (rt ra rb : RegNo) (sh : Nat) (s : State) : Result State :=
  loadIndexed 1 zext64 rt ra rb sh s

/-- `lbzsux RT,RA,RB,SH`: Load Byte and Zero Shifted with Update Indexed (rule R74). -/
def execLbzsux (rt ra rb : RegNo) (sh : Nat) (s : State) : Result State :=
  loadUpdate .lbzsux 1 zext64 rt ra rb sh s

/-- `lhzsx RT,RA,RB,SH`: Load Halfword and Zero Shifted Indexed (rule R75). -/
def execLhzsx (rt ra rb : RegNo) (sh : Nat) (s : State) : Result State :=
  loadIndexed 2 zext64 rt ra rb sh s

/-- `lhzsux RT,RA,RB,SH`: Load Halfword and Zero Shifted with Update Indexed (rule R76). -/
def execLhzsux (rt ra rb : RegNo) (sh : Nat) (s : State) : Result State :=
  loadUpdate .lhzsux 2 zext64 rt ra rb sh s

/-- `lhasx RT,RA,RB,SH`: Load Halfword Algebraic Shifted Indexed (rule R77). -/
def execLhasx (rt ra rb : RegNo) (sh : Nat) (s : State) : Result State :=
  loadIndexed 2 sext64 rt ra rb sh s

/-- `lhasux RT,RA,RB,SH`: Load Halfword Algebraic Shifted with Update Indexed (rule R78). -/
def execLhasux (rt ra rb : RegNo) (sh : Nat) (s : State) : Result State :=
  loadUpdate .lhasux 2 sext64 rt ra rb sh s

/-- `lwzsx RT,RA,RB,SH`: Load Word and Zero Shifted Indexed (rule R79). -/
def execLwzsx (rt ra rb : RegNo) (sh : Nat) (s : State) : Result State :=
  loadIndexed 4 zext64 rt ra rb sh s

/-- `lwzsux RT,RA,RB,SH`: Load Word and Zero Shifted with Update Indexed (rule R80). -/
def execLwzsux (rt ra rb : RegNo) (sh : Nat) (s : State) : Result State :=
  loadUpdate .lwzsux 4 zext64 rt ra rb sh s

/-- `lwasx RT,RA,RB,SH`: Load Word Algebraic Shifted Indexed (rule R81). -/
def execLwasx (rt ra rb : RegNo) (sh : Nat) (s : State) : Result State :=
  loadIndexed 4 sext64 rt ra rb sh s

/-- `lwasux RT,RA,RB,SH`: Load Word Algebraic Shifted with Update Indexed (rule R82). -/
def execLwasux (rt ra rb : RegNo) (sh : Nat) (s : State) : Result State :=
  loadUpdate .lwasux 4 sext64 rt ra rb sh s

/-- `ldsx RT,RA,RB,SH`: Load Doubleword Shifted Indexed (rule R83). -/
def execLdsx (rt ra rb : RegNo) (sh : Nat) (s : State) : Result State :=
  loadIndexed 8 (fun v => v) rt ra rb sh s

/-- `ldsux RT,RA,RB,SH`: Load Doubleword Shifted with Update Indexed (rule R84). -/
def execLdsux (rt ra rb : RegNo) (sh : Nat) (s : State) : Result State :=
  loadUpdate .ldsux 8 (fun v => v) rt ra rb sh s

end Sys2Proof.Machine
end

