-- ==== Sys2Proof/Machine/Dispatch.lean ====
section
/-! DEFINITION. `exec`: each instruction's meaning, one arm per constructor of `Instr`. -/

namespace Sys2Proof.Machine

def exec (i : Instr) (s : State) : Host.Outcome State Fault Refusal :=
  match i with
  | .lbzsx rt ra rb sh => Sys2Proof.Machine.execLbzsx rt ra rb sh s
  | .lbzsux rt ra rb sh => Sys2Proof.Machine.execLbzsux rt ra rb sh s
  | .lhzsx rt ra rb sh => Sys2Proof.Machine.execLhzsx rt ra rb sh s
  | .lhzsux rt ra rb sh => Sys2Proof.Machine.execLhzsux rt ra rb sh s
  | .lhasx rt ra rb sh => Sys2Proof.Machine.execLhasx rt ra rb sh s
  | .lhasux rt ra rb sh => Sys2Proof.Machine.execLhasux rt ra rb sh s
  | .lwzsx rt ra rb sh => Sys2Proof.Machine.execLwzsx rt ra rb sh s
  | .lwzsux rt ra rb sh => Sys2Proof.Machine.execLwzsux rt ra rb sh s
  | .lwasx rt ra rb sh => Sys2Proof.Machine.execLwasx rt ra rb sh s
  | .lwasux rt ra rb sh => Sys2Proof.Machine.execLwasux rt ra rb sh s
  | .ldsx rt ra rb sh => Sys2Proof.Machine.execLdsx rt ra rb sh s
  | .ldsux rt ra rb sh => Sys2Proof.Machine.execLdsux rt ra rb sh s
  | .lhbrsx rt ra rb sh => Sys2Proof.Machine.execLhbrsx rt ra rb sh s
  | .lwbrsx rt ra rb sh => Sys2Proof.Machine.execLwbrsx rt ra rb sh s
  | .ldbrsx rt ra rb sh => Sys2Proof.Machine.execLdbrsx rt ra rb sh s

end Sys2Proof.Machine
end

