-- ==== Sys2Proof/Machine/Fetch.lean ====
section
/-! DEFINITION. What stands at pc: an instruction of the program text, its end, or nothing (rules R91, R96, R106, R109). -/

namespace Sys2Proof.Machine

/-- The refusal of a step for a rejected reading (rule R91). -/
def refusalOf : DecodeRefusal → Refusal
  | .unknownInstruction => .unknownInstruction
  | .reservedBit => .reservedBit
  | .operandRange => .operandRange

/-- L, the number of instructions of the program text (rule R106). -/
def Text.length : Text → Nat
  | .asm lines => lines.length
  | .binary words => words.length

/-- Instruction k of the program text as its level reads it; none past the end (92_eei_decisions.md D14). -/
def Text.read? (cfg : Config) (k : Nat) : Text → Option Decoded
  | .asm lines => lines[k]?.map (assemble cfg)
  | .binary words => words[k]?.map (decode cfg)

/-- The distance of pc above the base of the program text, modulo 2^64. -/
def State.offset (s : State) : Nat :=
  (s.pc - s.base).toNat

/-- The fetch: instruction k stands at `base + 4k` (rule R106), the end address is `base + 4L` (rule R109), and no instruction
stands anywhere else (rule R96; log entry 12). -/
def fetch (s : State) : Result Instr :=
  if s.offset % 4 ≠ 0 then .refused .unknownInstruction
  else if s.offset / 4 = s.text.length then .refused .programEnd
  else
    match s.text.read? s.cfg (s.offset / 4) with
    | some (.instr i) => .next i
    | some (.refused r) => .refused (refusalOf r)
    | none => .refused .unknownInstruction

end Sys2Proof.Machine
end

