-- ==== Sys2Proof/Machine/Step.lean ====
section
/-! DEFINITION. One step of the one agent (rules R17, R91): read the instruction at pc and execute it. -/

namespace Sys2Proof.Machine

/-- A step executes the instruction at pc (rule R91). -/
def step (s : State) : Host.Outcome State Fault Refusal :=
  Result.andThen (fetch s) fun i => exec i s

/-- The state whose next fetch reads the given word: a program text of that one word, based at pc. It stands for the launch's
placing of the program text (rule R106; log entry 2). -/
def State.withFetchWord (s : State) (nbits w : Nat) : State :=
  { s with base := s.pc, text := .binary [BitVec.ofNat 32 (w % 2 ^ nbits)] }

end Sys2Proof.Machine
end

