-- ==== Sys2Proof/Safety.lean ====
section
/-! DEFINITION. Launch states, runs and their normal end (rules R106 to R109), and the invariant of the machine: the terms that
claims use. -/

namespace Sys2Proof.Machine

/-- The program text is placed as a launch state must place it: `base` is a multiple of 4 (rule R106) and `base + 4L` is at most
2^64, so that pc does not wrap inside the text (rule R109). The second clause leaves out the one text, of 2^62 instructions at
base 0, whose end address would be its own base (log entry 12). -/
structure State.Placed (s : State) : Prop where
  aligned : s.base.toNat % 4 = 0
  short : s.text.length < 2 ^ 62
  fits : s.base.toNat + 4 * s.text.length ≤ 2 ^ 64

/-- pc is the address of an instruction of the program text or its end address (rules R27, R109). -/
def State.InText (s : State) : Prop :=
  ∃ k, k ≤ s.text.length ∧ s.pc = s.base + BitVec.ofNat 64 (4 * k)

/-- The invariant of the machine: memory in its canonical form, a configuration the model admits (rules R55, R59), the program text
placed (rules R106, R109) and pc in it (rule R27). DESIGN CHOICE (log entry 23): an `ENC` that fits is asked for whatever the level of
the program text. -/
structure State.Inv (s : State) : Prop where
  memory : s.mem.wf
  config : s.cfg.wf
  placed : s.Placed
  inText : s.InText

/-- A launch state: what rules R106 and R108 ask of it, pc = `base` among it. Which registers hold a value is the launch's own
choice (rule R23). DESIGN CHOICE (log entry 23): an `ENC` that fits (`Config.wf`) is asked for whatever the level of the program text,
where rule R106 gives `ENC` for a binary-level model alone; so an assembly text with `SH_BITS` above 13 has no launch state here,
though `step` runs it. -/
structure State.Launch (s : State) : Prop where
  memory : s.mem.wf
  config : s.cfg.wf
  placed : s.Placed
  entry : s.pc = s.base

/-- Every general register holds a value: clause (2) of rule R108, for all registers at once. -/
def State.Valued (s : State) : Prop :=
  ∀ i : RegNo, s.reg i ≠ .noValue

/-- `k` steps from a state, ended by the first stop (rule R91); it is `Host.Core.run` of this machine (Laws/Run.lean). -/
def run : Nat → State → Result State
  | 0, s => .next s
  | k + 1, s => Result.andThen (step s) (run k)

/-- The run of `k` steps from `s` goes through and reaches `t`. -/
def Reaches (s : State) (k : Nat) (t : State) : Prop :=
  run k s = .next t

/-- A run that ends normally: after `k` steps pc is the end address of the program text, and the outcome there is `End` (rules R91,
R109). -/
def EndsNormally (s : State) (k : Nat) (t : State) : Prop :=
  Reaches s k t ∧ step t = .refused .programEnd

/-- A run that stops before its end: after `k` steps the next one is a fault or a refusal other than `End` (rule R91). -/
def StopsEarly (s : State) (k : Nat) : Prop :=
  ∃ t, Reaches s k t ∧
    ((∃ f, step t = .fault f) ∨ ∃ r, step t = .refused r ∧ r ≠ .programEnd)

/-- A safe run: from this state the program text runs to its end (rule R109). -/
def SafeRun (s : State) : Prop :=
  ∃ k t, EndsNormally s k t

end Sys2Proof.Machine
end

