-- ==== Sys2Proof/Certificates/Slice0/Obligations.lean ====
section
/-! DEFINITION. The statements for the provers. The first part holds the terms they are written in, taken from the spec's own words
and not from the model's operations: a loaded element is a concatenation of cells (rule R36), an effective address a sum of
natural numbers modulo 2^64 (rules R69, R70), an admitted access one whose every cell lies in a range of `Admit` (rule R42). -/

namespace Sys2Proof.Claims
open Sys2Proof.Machine

/-- `B_i = byte(EA + i)` (rule R36). -/
def cellsAt (s : State) (ea : Word) (i : Nat) : Byte :=
  s.mem.byte (ea.toNat + i)

/-- The halfword of two cells, `MemRead(a, 2)` by rule R36. -/
def halfword (e : Endian) (B : Nat → Byte) : BitVec 16 :=
  match e with
  | .be => B 0 ++ B 1
  | .le => B 1 ++ B 0

/-- The word of four cells, `MemRead(a, 4)` by rule R36. -/
def word (e : Endian) (B : Nat → Byte) : BitVec 32 :=
  match e with
  | .be => B 0 ++ B 1 ++ B 2 ++ B 3
  | .le => B 3 ++ B 2 ++ B 1 ++ B 0

/-- The doubleword of eight cells, `MemRead(a, 8)` by rule R36. -/
def doubleword (e : Endian) (B : Nat → Byte) : BitVec 64 :=
  match e with
  | .be => B 0 ++ B 1 ++ B 2 ++ B 3 ++ B 4 ++ B 5 ++ B 6 ++ B 7
  | .le => B 7 ++ B 6 ++ B 5 ++ B 4 ++ B 3 ++ B 2 ++ B 1 ++ B 0

/-- `b` is the base of a non-update form: 0 where RA = 0, else the contents of register RA (rule R12). -/
def BaseIs (s : State) (ra : RegNo) (b : Word) : Prop :=
  (ra = 0 ∧ b = 0) ∨ (ra ≠ 0 ∧ s.reg ra = .value b)

/-- `(b + x * 2^(SH+1)) mod 2^64` (rules R69, R70). The rules are written for SH + 1 < 64 (rule R59); for a larger SH the same formula is
DEDUCED (log entry 17). -/
def addressOf (b x : Word) (sh : Nat) : Word :=
  BitVec.ofNat 64 ((b.toNat + x.toNat * 2 ^ (sh + 1)) % 2 ^ 64)

/-- A cell is admitted: its address lies in a range of `Admit` (rule R42). -/
def CellAdmitted (s : State) (a : Nat) : Prop :=
  ∃ r ∈ s.cfg.memmap, r.base ≤ a ∧ a < r.base + r.size

/-- An access of `n` bytes at EA is admitted: all its cells are (rule R42). -/
def AccessAdmitted (s : State) (ea : Word) (n : Nat) : Prop :=
  ∀ i, i < n → CellAdmitted s (ea.toNat + i)

/-- The access passes the wrap check (rule R41) and the alignment check (rule R40). -/
def AccessAllowed (s : State) (ea : Word) (n : Nat) : Prop :=
  ea.toNat + n ≤ 2 ^ 64 ∧ (ea.toNat % n = 0 ∨ s.cfg.misalign = .perform)

/-- Where a wide access stops: the four outcomes of rule R99, entries 4 to 6, for an instruction whose EA is given. -/
def WideAccessStops (i : Instr) (n : Nat) (s : State) (ea : Word) : Prop :=
  (2 ^ 64 < ea.toNat + n → exec i s = .refused .addressWrap) ∧
  (ea.toNat + n ≤ 2 ^ 64 → ea.toNat % n ≠ 0 → s.cfg.misalign = .fault → exec i s = .fault (.alignmentFault ea)) ∧
  (ea.toNat + n ≤ 2 ^ 64 → ea.toNat % n ≠ 0 → s.cfg.misalign = .refuse → exec i s = .refused .misaligned) ∧
  (AccessAllowed s ea n → ¬ AccessAdmitted s ea n → exec i s = .fault (.storageFault ea))

/-- The state after a non-update load of `w`: RT and pc, and nothing else. -/
def afterLoad (s : State) (rt : RegNo) (w : Word) : State :=
  { s with regs := s.regs.set rt.val (.value w), pc := s.pc + 4 }

/-- The state after an update load of `w` from EA: RT, RA and pc, and nothing else. -/
def afterUpdate (s : State) (rt ra : RegNo) (w ea : Word) : State :=
  { s with regs := (s.regs.set rt.val (.value w)).set ra.val (.value ea), pc := s.pc + 4 }

/-- Everything a non-update byte load does (rules R71, R99): the two reads of "no value", the storage fault, and the load. The
clauses exhaust the states and no two of them meet; a byte access neither wraps nor is misaligned. -/
def ByteLoad (i : Instr) (rt ra rb : RegNo) (sh : Nat) (result : Byte → Word) : Prop :=
  ∀ s : State,
    (ra ≠ 0 → s.reg ra = .noValue → exec i s = .fault (.uninitRead ra)) ∧
    (∀ b, BaseIs s ra b → s.reg rb = .noValue → exec i s = .fault (.uninitRead rb)) ∧
    (∀ b x, BaseIs s ra b → s.reg rb = .value x →
      (¬ CellAdmitted s (addressOf b x sh).toNat → exec i s = .fault (.storageFault (addressOf b x sh))) ∧
      (CellAdmitted s (addressOf b x sh).toNat →
        exec i s = .next (afterLoad s rt (result (s.mem.byte (addressOf b x sh).toNat)))))

/-- Everything an update byte load does: as `ByteLoad`, after the invalid forms (rule R62), with EA put in RA. -/
def ByteUpdate (m : Mnemonic) (i : Instr) (rt ra rb : RegNo) (sh : Nat) (result : Byte → Word) : Prop :=
  ∀ s : State,
    (ra = 0 ∨ ra = rt → exec i s = .fault (.invalidForm m rt ra)) ∧
    (ra ≠ 0 → ra ≠ rt → s.reg ra = .noValue → exec i s = .fault (.uninitRead ra)) ∧
    (ra ≠ 0 → ra ≠ rt → ∀ b, s.reg ra = .value b → s.reg rb = .noValue → exec i s = .fault (.uninitRead rb)) ∧
    (ra ≠ 0 → ra ≠ rt → ∀ b x, s.reg ra = .value b → s.reg rb = .value x →
      (¬ CellAdmitted s (addressOf b x sh).toNat → exec i s = .fault (.storageFault (addressOf b x sh))) ∧
      (CellAdmitted s (addressOf b x sh).toNat →
        exec i s = .next (afterUpdate s rt ra (result (s.mem.byte (addressOf b x sh).toNat)) (addressOf b x sh))))

/-- Everything a non-update load of `n` = 2, 4 or 8 bytes does (rules R71, R99): the two reads of "no value", the stops of the access,
and the load of `result` of the byte order and the cells. The clauses exhaust the states and no two of them meet. -/
def WideLoad (i : Instr) (n : Nat) (rt ra rb : RegNo) (sh : Nat) (result : Endian → (Nat → Byte) → Word) : Prop :=
  ∀ s : State,
    (ra ≠ 0 → s.reg ra = .noValue → exec i s = .fault (.uninitRead ra)) ∧
    (∀ b, BaseIs s ra b → s.reg rb = .noValue → exec i s = .fault (.uninitRead rb)) ∧
    (∀ b x, BaseIs s ra b → s.reg rb = .value x →
      WideAccessStops i n s (addressOf b x sh) ∧
      (AccessAllowed s (addressOf b x sh) n → AccessAdmitted s (addressOf b x sh) n →
        exec i s = .next (afterLoad s rt (result s.cfg.endian (cellsAt s (addressOf b x sh))))))

/-- Everything an update load of `n` = 2, 4 or 8 bytes does: as `WideLoad`, after the invalid forms (rule R62), with EA put in RA. -/
def WideUpdate (m : Mnemonic) (i : Instr) (n : Nat) (rt ra rb : RegNo) (sh : Nat)
    (result : Endian → (Nat → Byte) → Word) : Prop :=
  ∀ s : State,
    (ra = 0 ∨ ra = rt → exec i s = .fault (.invalidForm m rt ra)) ∧
    (ra ≠ 0 → ra ≠ rt → s.reg ra = .noValue → exec i s = .fault (.uninitRead ra)) ∧
    (ra ≠ 0 → ra ≠ rt → ∀ b, s.reg ra = .value b → s.reg rb = .noValue → exec i s = .fault (.uninitRead rb)) ∧
    (ra ≠ 0 → ra ≠ rt → ∀ b x, s.reg ra = .value b → s.reg rb = .value x →
      WideAccessStops i n s (addressOf b x sh) ∧
      (AccessAllowed s (addressOf b x sh) n → AccessAdmitted s (addressOf b x sh) n →
        exec i s = .next
          (afterUpdate s rt ra (result s.cfg.endian (cellsAt s (addressOf b x sh))) (addressOf b x sh))))

/-- An instruction's form is invalid (rule R62): an update form with RA = 0 or RA = RT. -/
def InvalidForm (i : Instr) : Prop :=
  i.mnemonic.isUpdate = true ∧ (i.ra = 0 ∨ i.ra = i.rt)

/-- RA is read as the base: in an update form always, else where the operand is not 0 (rule R20). -/
def ReadsRA (i : Instr) : Prop :=
  i.mnemonic.isUpdate = true ∨ i.ra ≠ 0

/-- `ea` is the effective address of an instruction in a state: the registers it reads hold values, and `ea` is their sum by rule R69
(the base is 0 where RA is not read) or R70. -/
def EffectiveAddress (i : Instr) (s : State) (ea : Word) : Prop :=
  ∃ b x, ((ReadsRA i ∧ s.reg i.ra = .value b) ∨ (¬ ReadsRA i ∧ b = 0)) ∧ s.reg i.rb = .value x ∧ ea = addressOf b x i.sh

/-- The same state with another byte order. -/
def withEndian (e : Endian) (s : State) : State :=
  { s with cfg := { s.cfg with endian := e } }

/-- The other byte order. -/
def other : Endian → Endian
  | .be => .le
  | .le => .be

/-- `f` applied to the state a step completes in; a stop is the same stop. -/
def mapNext (f : State → State) : Result State → Result State
  | .next s => .next (f s)
  | .fault r => .fault r
  | .refused r => .refused r

/-- The same state with other contents in register 0. -/
def withReg0 (c : RegContent) (s : State) : State :=
  { s with regs := s.regs.set 0 c }

end Sys2Proof.Claims

open Sys2Proof Sys2Proof.Machine Sys2Proof.Claims

/-! The fifteen instructions, each whole. -/

/-- Rule R73: `lbzsx`, every form and every state: the byte at EA is loaded into RT[56:63] and RT[0:55] are set to 0. -/
def Obligations.LbzsxLoadsByteZeroExtended : Prop :=
  ∀ (rt ra rb : RegNo) (sh : Nat), ByteLoad (.lbzsx rt ra rb sh) rt ra rb sh (fun v => 0#56 ++ v)

/-- Rule R74: `lbzsux`, every form and every state: the byte at EA is loaded zero-extended and EA is placed into RA. -/
def Obligations.LbzsuxLoadsByteAndUpdatesBase : Prop :=
  ∀ (rt ra rb : RegNo) (sh : Nat), ByteUpdate .lbzsux (.lbzsux rt ra rb sh) rt ra rb sh (fun v => 0#56 ++ v)

/-- Rule R75: `lhzsx`, every form and every state: the halfword at EA is loaded into RT[48:63] and RT[0:47] are set to 0. -/
def Obligations.LhzsxLoadsHalfwordZeroExtended : Prop :=
  ∀ (rt ra rb : RegNo) (sh : Nat),
    WideLoad (.lhzsx rt ra rb sh) 2 rt ra rb sh (fun e B => 0#48 ++ halfword e B)

/-- Rule R76: `lhzsux`, every form and every state: the halfword at EA is loaded zero-extended and EA is placed into RA. -/
def Obligations.LhzsuxLoadsHalfwordAndUpdatesBase : Prop :=
  ∀ (rt ra rb : RegNo) (sh : Nat),
    WideUpdate .lhzsux (.lhzsux rt ra rb sh) 2 rt ra rb sh (fun e B => 0#48 ++ halfword e B)

/-- Rule R77: `lhasx`, every form and every state: the halfword at EA is loaded into RT[48:63] and RT[0:47] are filled with a copy of bit 0 of the loaded halfword. -/
def Obligations.LhasxLoadsHalfwordSignExtended : Prop :=
  ∀ (rt ra rb : RegNo) (sh : Nat),
    WideLoad (.lhasx rt ra rb sh) 2 rt ra rb sh (fun e B => BitVec.fill 48 (halfword e B).msb ++ halfword e B)

/-- Rule R78: `lhasux`, every form and every state: the halfword at EA is loaded sign-extended and EA is placed into RA. -/
def Obligations.LhasuxLoadsHalfwordAlgebraicAndUpdatesBase : Prop :=
  ∀ (rt ra rb : RegNo) (sh : Nat),
    WideUpdate .lhasux (.lhasux rt ra rb sh) 2 rt ra rb sh (fun e B => BitVec.fill 48 (halfword e B).msb ++ halfword e B)

/-- Rule R79: `lwzsx`, every form and every state: the word at EA is loaded into RT[32:63] and RT[0:31] are set to 0. -/
def Obligations.LwzsxLoadsWordZeroExtended : Prop :=
  ∀ (rt ra rb : RegNo) (sh : Nat),
    WideLoad (.lwzsx rt ra rb sh) 4 rt ra rb sh (fun e B => 0#32 ++ word e B)

/-- Rule R80: `lwzsux`, every form and every state: the word at EA is loaded zero-extended and EA is placed into RA. -/
def Obligations.LwzsuxLoadsWordAndUpdatesBase : Prop :=
  ∀ (rt ra rb : RegNo) (sh : Nat),
    WideUpdate .lwzsux (.lwzsux rt ra rb sh) 4 rt ra rb sh (fun e B => 0#32 ++ word e B)

/-- Rule R81: `lwasx`, every form and every state: the word at EA is loaded into RT[32:63] and RT[0:31] are filled with a copy of bit 0 of the loaded word. -/
def Obligations.LwasxLoadsWordSignExtended : Prop :=
  ∀ (rt ra rb : RegNo) (sh : Nat),
    WideLoad (.lwasx rt ra rb sh) 4 rt ra rb sh (fun e B => BitVec.fill 32 (word e B).msb ++ word e B)

/-- Rule R82: `lwasux`, every form and every state: the word at EA is loaded sign-extended and EA is placed into RA. -/
def Obligations.LwasuxLoadsWordAlgebraicAndUpdatesBase : Prop :=
  ∀ (rt ra rb : RegNo) (sh : Nat),
    WideUpdate .lwasux (.lwasux rt ra rb sh) 4 rt ra rb sh (fun e B => BitVec.fill 32 (word e B).msb ++ word e B)

/-- Rule R83: `ldsx`, every form and every state: the doubleword at EA is loaded into RT. -/
def Obligations.LdsxLoadsDoubleword : Prop :=
  ∀ (rt ra rb : RegNo) (sh : Nat),
    WideLoad (.ldsx rt ra rb sh) 8 rt ra rb sh (fun e B => doubleword e B)

/-- Rule R84: `ldsux`, every form and every state: the doubleword at EA is loaded and EA is placed into RA. -/
def Obligations.LdsuxLoadsDoublewordAndUpdatesBase : Prop :=
  ∀ (rt ra rb : RegNo) (sh : Nat),
    WideUpdate .ldsux (.ldsux rt ra rb sh) 8 rt ra rb sh (fun e B => doubleword e B)

/-- Rule R86: `lhbrsx`, every form and every state: RT[7:0] is v[15:8], RT[15:8] is v[7:0] and the upper 48 bits are 0, for v the halfword at EA. -/
def Obligations.LhbrsxLoadsHalfwordByteReversed : Prop :=
  ∀ (rt ra rb : RegNo) (sh : Nat),
    WideLoad (.lhbrsx rt ra rb sh) 2 rt ra rb sh (fun e B =>
      let v := halfword e B
      0#48 ++ (v.extractLsb' 0 8 ++ v.extractLsb' 8 8))

/-- Rule R87: `lwbrsx`, every form and every state: the bytes of the word at EA are loaded in the opposite order and the upper 32 bits are 0. -/
def Obligations.LwbrsxLoadsWordByteReversed : Prop :=
  ∀ (rt ra rb : RegNo) (sh : Nat),
    WideLoad (.lwbrsx rt ra rb sh) 4 rt ra rb sh (fun e B =>
      let v := word e B
      0#32 ++ (v.extractLsb' 0 8 ++ v.extractLsb' 8 8 ++ v.extractLsb' 16 8 ++ v.extractLsb' 24 8))

/-- Rule R88: `ldbrsx`, every form and every state: the bytes of the doubleword at EA are loaded in the opposite order. -/
def Obligations.LdbrsxLoadsDoublewordByteReversed : Prop :=
  ∀ (rt ra rb : RegNo) (sh : Nat),
    WideLoad (.ldbrsx rt ra rb sh) 8 rt ra rb sh (fun e B =>
      let v := doubleword e B
      v.extractLsb' 0 8 ++ v.extractLsb' 8 8 ++ v.extractLsb' 16 8 ++ v.extractLsb' 24 8 ++
        v.extractLsb' 32 8 ++ v.extractLsb' 40 8 ++ v.extractLsb' 48 8 ++ v.extractLsb' 56 8)

/-! Operands and effective addresses. -/

/-- Rule R12: `(RA|0)` is 0 where the operand RA is 0, whatever register 0 holds, and the contents of register RA otherwise. -/
def Obligations.RAOrZeroIsZeroForRegisterZero : Prop :=
  ∀ (s : State) (ra : RegNo),
    (ra = 0 → gprz s ra = .next 0) ∧
    (ra ≠ 0 → ∀ w, s.reg ra = .value w → gprz s ra = .next w)

/-- Rule R69: `EA = (b + ((x[RB] * 2^(SH+1)) mod 2^64)) mod 2^64`, which is `(b + x[RB] * 2^(SH+1)) mod 2^64`, for every SH. Rule R59 says the rules are written for SH + 1 < 64; that the formula holds for a larger SH too is DEDUCED (log entry 17). -/
def Obligations.NonUpdateAddressIsBasePlusShiftedIndex : Prop :=
  ∀ (s : State) (ra rb : RegNo) (sh : Nat) (b x : Word), BaseIs s ra b → s.reg rb = .value x →
    indexedEA s ra rb sh = .next (BitVec.ofNat 64 ((b.toNat + x.toNat * 2 ^ (sh + 1) % 2 ^ 64) % 2 ^ 64)) ∧
    indexedEA s ra rb sh = .next (BitVec.ofNat 64 ((b.toNat + x.toNat * 2 ^ (sh + 1)) % 2 ^ 64))

/-- Rule R70: EA of an update form, with RA read as an ordinary register; where RA = RB, `EA = x[RA] * (1 + 2^(SH+1)) mod 2^64`. Rule R59 says the rules are written for SH + 1 < 64; that both formulas hold for a larger SH too is DEDUCED (log entry 17). -/
def Obligations.UpdateAddressIsBasePlusShiftedIndex : Prop :=
  ∀ (s : State) (ra rb : RegNo) (sh : Nat) (b : Word), s.reg ra = .value b →
    (∀ x, s.reg rb = .value x →
      updateEA s ra rb sh = .next (BitVec.ofNat 64 ((b.toNat + x.toNat * 2 ^ (sh + 1) % 2 ^ 64) % 2 ^ 64))) ∧
    updateEA s ra ra sh = .next (BitVec.ofNat 64 (b.toNat * (1 + 2 ^ (sh + 1)) % 2 ^ 64))

/-! Registers and memory. -/

/-- Rules R19, R22: a write replaces all of one register, register 0 among them, and no other register; nothing else of the state changes. -/
def Obligations.RegisterWriteReplacesOneRegister : Prop :=
  ∀ (s : State) (i : RegNo) (w : Word),
    (s.setReg i w).reg i = .value w ∧
    (∀ j, j ≠ i → (s.setReg i w).reg j = s.reg j) ∧
    (s.setReg i w).pc = s.pc ∧ (s.setReg i w).mem = s.mem ∧ (s.setReg i w).base = s.base ∧
    (s.setReg i w).text = s.text ∧ (s.setReg i w).cfg = s.cfg

/-- Rule R36: under `LE` the lane [8i+7:8i] of `MemRead(a, n)` is `B_i`, under `BE` the lane [8(n-1-i)+7:8(n-1-i)] is. -/
def Obligations.MemReadPutsEachCellInItsLane : Prop :=
  ∀ (mem : Memory) (a n i : Nat), i < n →
    (memRead .le mem a n).extractLsb' (8 * i) 8 = mem.byte (a + i) ∧
    (memRead .be mem a n).extractLsb' (8 * (n - 1 - i)) 8 = mem.byte (a + i)

/-- Rule R39: an access of n + m bytes is the accesses of its first n and its last m bytes, put together in the byte order's way. -/
def Obligations.MixedWidthReadsShareTheirCells : Prop :=
  ∀ (mem : Memory) (a n m : Nat),
    (memRead .be mem a (n + m)).toNat = (memRead .be mem a n).toNat * 2 ^ (8 * m) + (memRead .be mem (a + n) m).toNat ∧
    (memRead .le mem a (n + m)).toNat = (memRead .le mem a n).toNat + (memRead .le mem (a + n) m).toNat * 2 ^ (8 * n)

/-- Rule R85: `brev_2`, `brev_4`, `brev_8` as the concatenations the rule writes out; reversing twice gives the value back. -/
def Obligations.ByteReversalReversesTheBytes : Prop :=
  (∀ v : BitVec (8 * 2), brev 2 v = v.extractLsb' 0 8 ++ v.extractLsb' 8 8) ∧
  (∀ v : BitVec (8 * 4),
    brev 4 v = v.extractLsb' 0 8 ++ v.extractLsb' 8 8 ++ v.extractLsb' 16 8 ++ v.extractLsb' 24 8) ∧
  (∀ v : BitVec (8 * 8),
    brev 8 v = v.extractLsb' 0 8 ++ v.extractLsb' 8 8 ++ v.extractLsb' 16 8 ++ v.extractLsb' 24 8 ++
      v.extractLsb' 32 8 ++ v.extractLsb' 40 8 ++ v.extractLsb' 48 8 ++ v.extractLsb' 56 8) ∧
  (∀ (n : Nat) (v : BitVec (8 * n)), brev n (brev n v) = v)

/-- Rule R89: a byte-reverse load gives what the plain load of its size gives under the other byte order, on every state and to the same stop. -/
def Obligations.ByteReverseLoadsAreThePlainLoadsOfTheOtherOrder : Prop :=
  ∀ (s : State) (e : Endian) (rt ra rb : RegNo) (sh : Nat),
    exec (.lhbrsx rt ra rb sh) (withEndian e s) =
      mapNext (withEndian e) (exec (.lhzsx rt ra rb sh) (withEndian (other e) s)) ∧
    exec (.lwbrsx rt ra rb sh) (withEndian e s) =
      mapNext (withEndian e) (exec (.lwzsx rt ra rb sh) (withEndian (other e) s)) ∧
    exec (.ldbrsx rt ra rb sh) (withEndian e s) =
      mapNext (withEndian e) (exec (.ldsx rt ra rb sh) (withEndian (other e) s))

/-- The model's own form of memory (log entry 7): two memories in canonical form that read alike at every address are the same list. -/
def Obligations.CanonicalMemoriesThatReadAlikeAreEqual : Prop :=
  ∀ m m' : Memory, m.wf → m'.wf → (∀ a, m.byte a = m'.byte a) → m = m'

/-! What stops an instruction, over all fifteen. -/

/-- Rule R62 with R63 and R92: an update form with RA = 0 or RA = RT raises `InvalidForm` with the mnemonic, RT and RA, in every state; nothing else does. -/
def Obligations.InvalidFormExactlyWhereTheRuleSays : Prop :=
  ∀ (i : Instr) (s : State) (m : Mnemonic) (rt ra : RegNo),
    exec i s = .fault (.invalidForm m rt ra) ↔ InvalidForm i ∧ m = i.mnemonic ∧ rt = i.rt ∧ ra = i.ra

/-- Rule R97, in the order of rule R99: RA (where it is read) before RB. -/
def Obligations.UninitReadExactlyOfAReadRegisterWithoutValue : Prop :=
  ∀ (i : Instr) (s : State) (j : RegNo),
    exec i s = .fault (.uninitRead j) ↔
      ¬ InvalidForm i ∧
        ((ReadsRA i ∧ s.reg i.ra = .noValue ∧ j = i.ra) ∨
         ((ReadsRA i → s.reg i.ra ≠ .noValue) ∧ s.reg i.rb = .noValue ∧ j = i.rb))

/-- Rule R95: `Refused(address_wrap)` where `EA + n > 2^64`, in the order of rule R99; never of a byte load. -/
def Obligations.AddressWrapExactlyPastTheTop : Prop :=
  ∀ (i : Instr) (s : State),
    (exec i s = .refused .addressWrap ↔
      ¬ InvalidForm i ∧ ∃ ea, EffectiveAddress i s ea ∧ 2 ^ 64 < ea.toNat + i.mnemonic.accessBytes) ∧
    (i.mnemonic.accessBytes = 1 → exec i s ≠ .refused .addressWrap)

/-- Rule R94: `AlignmentFault(EA)` only under `MISALIGN` = `fault`, where `EA mod n` is not 0, after the wrap check (rule R99); never of a byte load. -/
def Obligations.AlignmentFaultExactlyUnderMisalignFault : Prop :=
  ∀ (i : Instr) (s : State) (ea : Word),
    (exec i s = .fault (.alignmentFault ea) ↔
      ¬ InvalidForm i ∧ EffectiveAddress i s ea ∧ ea.toNat + i.mnemonic.accessBytes ≤ 2 ^ 64 ∧
        ea.toNat % i.mnemonic.accessBytes ≠ 0 ∧ s.cfg.misalign = .fault) ∧
    (i.mnemonic.accessBytes = 1 → exec i s ≠ .fault (.alignmentFault ea))

/-- Rule R40, third row of its table: `Refused(misaligned)` only under `MISALIGN` = `refuse`, where `EA mod n` is not 0, after the wrap check (rule R99). -/
def Obligations.MisalignedRefusedExactlyUnderMisalignRefuse : Prop :=
  ∀ (i : Instr) (s : State),
    exec i s = .refused .misaligned ↔
      ¬ InvalidForm i ∧ ∃ ea, EffectiveAddress i s ea ∧ ea.toNat + i.mnemonic.accessBytes ≤ 2 ^ 64 ∧
        ea.toNat % i.mnemonic.accessBytes ≠ 0 ∧ s.cfg.misalign = .refuse

/-- Rule R93: `StorageFault(EA)` of any of the fifteen loads where some cell of its access is not admitted, after the other checks of rule R99; EA is the address of the access's first byte. -/
def Obligations.StorageFaultExactlyOfAnUnadmittedCell : Prop :=
  ∀ (i : Instr) (s : State) (ea : Word),
    exec i s = .fault (.storageFault ea) ↔
      ¬ InvalidForm i ∧ EffectiveAddress i s ea ∧ AccessAllowed s ea i.mnemonic.accessBytes ∧
        ∃ j, j < i.mnemonic.accessBytes ∧ ¬ CellAdmitted s (ea.toNat + j)

/-- Rule R71 with R99: a load completes exactly where its form is valid, its source registers hold values and its access passes the three checks. -/
def Obligations.CompletesExactlyWhereNoCheckStops : Prop :=
  ∀ (i : Instr) (s : State),
    (∃ t, exec i s = .next t) ↔
      ¬ InvalidForm i ∧ ∃ ea, EffectiveAddress i s ea ∧ AccessAllowed s ea i.mnemonic.accessBytes ∧
        AccessAdmitted s ea i.mnemonic.accessBytes

/-! What an instruction changes, over all fifteen. -/

/-- The frame of all fifteen (rules R20, R24, R28, R32): RT and, in an update form, RA are written, each with a value; pc is pc + 4; every other register, every byte of memory, the program text and the configuration are as before. -/
def Obligations.LoadWritesOnlyItsTargetAndUpdatedBase : Prop :=
  ∀ (i : Instr) (s t : State), exec i s = .next t →
    (∃ w, t.reg i.rt = .value w) ∧
    (i.mnemonic.isUpdate = true → ∃ ea, EffectiveAddress i s ea ∧ t.reg i.ra = .value ea) ∧
    (∀ j, j ≠ i.rt → (i.mnemonic.isUpdate = true → j ≠ i.ra) → t.reg j = s.reg j) ∧
    t.pc = s.pc + 4 ∧
    (∀ a, t.mem.byte a = s.mem.byte a) ∧
    t.base = s.base ∧ t.text = s.text ∧ t.cfg = s.cfg

/-- Rule R72: the loaded value is a function of the n cells and `ENDIAN` alone. Two instructions of one mnemonic, whatever their operands, states and addresses, that read equal cells in one byte order load equal values. -/
def Obligations.LoadedValueDependsOnCellsAndByteOrderAlone : Prop :=
  ∀ (i i' : Instr) (s s' t t' : State) (ea ea' : Word),
    i.mnemonic = i'.mnemonic → s.cfg.endian = s'.cfg.endian →
    EffectiveAddress i s ea → EffectiveAddress i' s' ea' →
    (∀ j, j < i.mnemonic.accessBytes → s.mem.byte (ea.toNat + j) = s'.mem.byte (ea'.toNat + j)) →
    exec i s = .next t → exec i' s' = .next t' → t.reg i.rt = t'.reg i'.rt

/-- Rule R19: a non-update form with RA = 0 does not read register 0: other contents in register 0, 'no value' among them, leave its outcome the same, but for register 0 itself where that is not RT. -/
def Obligations.RegisterZeroIsNotReadAsBase : Prop :=
  ∀ (i : Instr) (s : State) (c : RegContent), i.mnemonic.isUpdate = false → i.ra = 0 → i.rb ≠ 0 →
    exec i (withReg0 c s) = mapNext (fun t => if i.rt = 0 then t else withReg0 c t) (exec i s)

/-! Reading instructions. -/

/-- Rule R55 with R61, for every `ENC` the model admits (fields of contiguous bits, log entry 21): decoding an encoded well-formed instruction gives it back, with every operand at every value. -/
def Obligations.DecodeInvertsEncode : Prop :=
  ∀ (cfg : Config) (i : Instr), cfg.wf → i.wf cfg → decode cfg (encode cfg i) = .instr i

/-- The other direction: a word that decodes is the encoding of the well-formed instruction it decodes to, so each instruction has one word. That every bit outside the six fields must be 0, under every `ENC`, is the model's choice (log entry 22). -/
def Obligations.EncodeInvertsDecode : Prop :=
  ∀ (cfg : Config) (w : InstrWord) (i : Instr), cfg.wf → decode cfg w = .instr i → encode cfg i = w ∧ i.wf cfg

/-- Rule R55: under the provisional layout, `word = PO_m * 2^26 + RT * 2^21 + RA * 2^16 + RB * 2^11 + SH * 2^9 + XO_m * 2 + 0`, whatever the opcode numbers are. -/
def Obligations.ProvisionalWordIsTheSumOfItsFields : Prop :=
  ∀ (cfg : Config) (i : Instr), cfg.wf → cfg.enc.layout = Layout.provisional → i.wf cfg →
    (encode cfg i).toNat =
      (cfg.enc.opcode i.mnemonic).po * 2 ^ 26 + i.rt.val * 2 ^ 21 + i.ra.val * 2 ^ 16 + i.rb.val * 2 ^ 11 + i.sh * 2 ^ 9 +
        (cfg.enc.opcode i.mnemonic).xo * 2 + 0

/-- Rule R64: under the provisional layout a word whose last bit is 1 is no instruction: `reserved_bit` where its opcode fields name a mnemonic, else `unknown_instruction`. -/
def Obligations.ReservedBitOfTheProvisionalLayoutIsRefused : Prop :=
  ∀ (cfg : Config) (w : InstrWord), cfg.enc.layout = Layout.provisional → w.getLsbD 0 = true →
    ((∃ m, cfg.enc.opcode m = ⟨w.toNat / 2 ^ 26, w.toNat / 2 % 2 ^ 8⟩) → decode cfg w = .refused .reservedBit) ∧
    ((∀ m, cfg.enc.opcode m ≠ ⟨w.toNat / 2 ^ 26, w.toNat / 2 % 2 ^ 8⟩) → decode cfg w = .refused .unknownInstruction)

/-- Rule R65: a word that `ENC` does not map to one of the fifteen is `unknown_instruction`, whatever its other bits hold. Where a reserved bit of it is 1, rule R64 applies too, and that `unknown_instruction` is the one reported is DEDUCED from the order of rule R99's list (log entry 11). -/
def Obligations.WordsWithAnUnmappedOpcodeAreUnknown : Prop :=
  ∀ (cfg : Config) (w : InstrWord),
    (decode cfg w = .refused .unknownInstruction ↔
      ∀ m, cfg.enc.opcode m ≠ ⟨cfg.enc.layout.po.get w, cfg.enc.layout.xo.get w⟩)

/-- Rules R59, R65, R90, R96 at the assembly level: a name that is none of the fifteen is unknown; an operand outside its range is refused; every other line is its instruction. -/
def Obligations.AssemblyLinesAreReadOrRefusedByName : Prop :=
  ∀ (cfg : Config) (l : AsmLine),
    ((∀ m : Mnemonic, m.name ≠ l.name) → assemble cfg l = .refused .unknownInstruction) ∧
    (∀ m : Mnemonic, m.name = l.name →
      (¬ (l.rt < 32 ∧ l.ra < 32 ∧ l.rb < 32 ∧ l.sh < 2 ^ cfg.shBits) → assemble cfg l = .refused .operandRange) ∧
      (∀ (rt ra rb : RegNo), l.rt = rt.val → l.ra = ra.val → l.rb = rb.val → l.sh < 2 ^ cfg.shBits →
        assemble cfg l = .instr (m.instr rt ra rb l.sh)))

/-- Rule R67: a line written as `mnemonic RT,RA,RB,SH` with decimal numbers reads back as itself, whatever its numbers; and the line of a well-formed instruction is read as that instruction. -/
def Obligations.ReadingAWrittenLineGivesItBack : Prop :=
  (∀ l : AsmLine, ' ' ∉ l.name.toList → parseLine l.chars = some l) ∧
  (∀ (cfg : Config) (i : Instr), i.wf cfg →
    (parseLine (disassemble i).chars).map (assemble cfg) = some (.instr i))

/-- A sanity check under the placeholder opcode numbers of log entry 8 (the model's, not the spec's): the operand parts of 95_test_vectors.md section 2.7 with those numbers. -/
def Obligations.WrittenOutWordsDecode : Prop :=
  decodeTableWord 32 0x00642A00 = some (.lbzsx 3 4 5 1) ∧
  decodeTableWord 32 0x03FEEE16 = some (.ldsux 31 30 29 3) ∧
  decodeTableWord 32 0x0000001A = some (.lwbrsx 0 0 0 0)

/-! Steps, runs and invariants. -/

/-- A step at instruction k of a binary program text is exec of the instruction the word there decodes to, in the same state; a word that does not decode stops the step under its reason. -/
def Obligations.StepRunsTheDecodedWord : Prop :=
  ∀ (s : State) (ws : List InstrWord) (k : Nat) (w : InstrWord),
    s.text = .binary ws → ws[k]? = some w → 4 * k < 2 ^ 64 → s.pc = s.base + BitVec.ofNat 64 (4 * k) →
    (∀ i, decode s.cfg w = .instr i → step s = exec i s) ∧
    (decode s.cfg w = .refused .unknownInstruction → step s = .refused .unknownInstruction) ∧
    (decode s.cfg w = .refused .reservedBit → step s = .refused .reservedBit) ∧
    (decode s.cfg w = .refused .operandRange → step s = .refused .operandRange)

/-- The same at the assembly level. -/
def Obligations.StepRunsTheAssemblyLine : Prop :=
  ∀ (s : State) (ls : List AsmLine) (k : Nat) (l : AsmLine),
    s.text = .asm ls → ls[k]? = some l → 4 * k < 2 ^ 64 → s.pc = s.base + BitVec.ofNat 64 (4 * k) →
    (∀ i, assemble s.cfg l = .instr i → step s = exec i s) ∧
    (assemble s.cfg l = .refused .unknownInstruction → step s = .refused .unknownInstruction) ∧
    (assemble s.cfg l = .refused .operandRange → step s = .refused .operandRange)

/-- Rule R109: the outcome at pc = `base + 4L` is `End` (the model's `programEnd`, log entry 10), and in a placed text nowhere else. -/
def Obligations.EndExactlyAtTheEndAddress : Prop :=
  ∀ s : State, s.Placed →
    (step s = .refused .programEnd ↔ s.pc = s.base + BitVec.ofNat 64 (4 * s.text.length))

/-- The model's reading of rule R96 (log entry 12, DEDUCED: the spec does not say what stands outside the program text): where pc is neither an instruction of a placed text nor its end address, the step is refused as `unknown_instruction`. -/
def Obligations.NoInstructionStandsOutsideTheText : Prop :=
  ∀ s : State, s.Placed → ¬ s.InText → step s = .refused .unknownInstruction

/-- The host's placing of one word (log entry 2): the next step reads that word, in a state that differs from the given one in the program text alone. -/
def Obligations.PlacedWordIsTheNextInstruction : Prop :=
  ∀ (s : State) (w : InstrWord) (i : Instr), decode s.cfg w = .instr i →
    step (s.withFetchWord 32 w.toNat) = exec i { s with base := s.pc, text := .binary [w] }

/-- The state at reset: a choice of the model (log entries 1 to 8), except `MISALIGN` = `refuse` (rule R40) and `SH_BITS` = 2 (rule R59), which are the spec's own defaults. -/
def Obligations.ResetIsTheNamedState : Prop :=
  (∀ i, State.reset.reg i = .value 0) ∧ State.reset.pc = 0 ∧ State.reset.base = 0 ∧ State.reset.text.length = 0 ∧
  (∀ a, State.reset.mem.byte a = 0) ∧ (∀ a, a < 2 ^ 64 → CellAdmitted State.reset a) ∧
  State.reset.cfg.endian = .be ∧ State.reset.cfg.misalign = .refuse ∧ State.reset.cfg.shBits = 2 ∧
  State.reset.cfg.enc.layout = Layout.provisional

/-- The invariant holds at reset, and every register holds a value there. -/
def Obligations.ResetMeetsTheInvariant : Prop :=
  State.reset.Inv ∧ State.reset.Launch ∧ State.reset.Valued

/-- From every state that meets the invariant: a step that completes keeps memory canonical, the configuration admitted, the text placed, and pc at an instruction of the text or at its end (rules R27, R32, R37, R51, R106). -/
def Obligations.StepKeepsTheInvariant : Prop :=
  ∀ s t : State, s.Inv → step s = .next t → t.Inv

/-- Rule R27: pc is a multiple of 4 in every state that meets the invariant. -/
def Obligations.InvariantPcIsWordAligned : Prop :=
  ∀ s : State, s.Inv → s.pc.toNat % 4 = 0

/-- Rules R22, R23, R97: a register that holds a value holds one after every step; so from a state in which all do, no step of any run raises `UninitRead`. -/
def Obligations.StepNeverTakesAValueAway : Prop :=
  (∀ (s t : State) (i : RegNo), step s = .next t → s.reg i ≠ .noValue → t.reg i ≠ .noValue) ∧
  (∀ (s t : State) (k : Nat) (i : RegNo), s.Valued → Reaches s k t → step t ≠ .fault (.uninitRead i))

/-- Over every run, every byte of memory (rule R32, which the spec marks as its own inference), the byte order (R37), the program text (R51), its base and the rest of the configuration (held in State by the model, log entry 9) stay as at launch. -/
def Obligations.RunKeepsMemoryTextAndConfiguration : Prop :=
  ∀ (s t : State) (k : Nat), Reaches s k t →
    (∀ a, t.mem.byte a = s.mem.byte a) ∧ t.base = s.base ∧ t.text = s.text ∧ t.cfg = s.cfg

/-- Rule R109: from a launch state with a text of L instructions, a run ends after exactly L steps, at `base + 4L`, or stops earlier in a fault or refusal; and it does not do both. A launch state is the model's (log entry 23). -/
def Obligations.EveryRunEndsOrStopsWithinItsText : Prop :=
  ∀ s : State, s.Launch →
    ((∃ t, EndsNormally s s.text.length t ∧ t.pc = s.base + BitVec.ofNat 64 (4 * s.text.length)) ∨
      ∃ k, k < s.text.length ∧ StopsEarly s k) ∧
    (∀ k t, EndsNormally s k t → k = s.text.length) ∧
    (∀ k t, Reaches s k t → k ≤ s.text.length ∧ t.pc = s.base + BitVec.ofNat 64 (4 * k))
end

