-- ==== Sys2Proof/Laws/Bytes.lean ====
section
/-! SUPPORT. Bytes and the elements made of them: the number of a byte list, the cells of an access, `MemRead` and `brev`, each with
what they say of one byte (rules R10, R35, R36). -/

namespace Sys2Proof.Machine

@[simp] theorem leNat_nil : leNat [] = 0 := rfl
@[simp] theorem leNat_cons (b : Byte) (bs : List Byte) : leNat (b :: bs) = b.toNat + 256 * leNat bs := rfl

theorem leNat_append (l m : List Byte) : leNat (l ++ m) = leNat l + leNat m * 2 ^ (8 * l.length) := by
  induction l with
  | nil => simp
  | cons b bs ih => simp [ih, Nat.mul_add, pow_add]; ring

theorem leNat_lt (l : List Byte) : leNat l < 2 ^ (8 * l.length) := by
  induction l with
  | nil => simp
  | cons b bs ih =>
    have := b.isLt
    simp only [leNat, List.length_cons, Nat.mul_add, pow_add]
    omega

/-- Digit `i` of the number, in base 256, is byte `i` of the list. -/
theorem leNat_digit (l : List Byte) (i : Nat) : leNat l / 2 ^ (8 * i) % 256 = (l.getD i 0).toNat := by
  induction l generalizing i with
  | nil => simp
  | cons b bs ih =>
    have := b.isLt
    cases i with
    | zero => simp; omega
    | succ i =>
      simp only [leNat, List.getD_cons_succ]
      rw [← ih i, show 8 * (i + 1) = 8 + 8 * i by ring, pow_add, ← Nat.div_div_eq_div_mul]
      congr 2
      omega

/-- Byte lane `i` of the element that `n` bytes make is byte `i`. -/
theorem ofNat_leNat_lane {n i : Nat} {l : List Byte} (h : i < n) (hl : l.length = n) :
    (BitVec.ofNat (8 * n) (leNat l)).extractLsb' (8 * i) 8 = l[i] := by
  have hlane : (BitVec.ofNat (8 * n) (leNat l)).extractLsb' (8 * i) 8 = BitVec.ofNat 8 (leNat l / 2 ^ (8 * i)) := by
    apply BitVec.eq_of_getLsbD_eq
    intro j hj
    rw [BitVec.getLsbD_extractLsb', BitVec.getLsbD_ofNat, BitVec.getLsbD_ofNat, Nat.testBit_div_two_pow]
    simp [hj, Nat.add_comm]
    omega
  rw [hlane]
  apply BitVec.eq_of_toNat_eq
  rw [BitVec.toNat_ofNat, show (2 : Nat) ^ 8 = 256 from rfl, leNat_digit]
  simp [hl, h]

/-! The bytes of an element and the element of bytes. -/

@[simp] theorem length_bytesOf (n : Nat) (v : BitVec (8 * n)) : (bytesOf n v).length = n := by simp [bytesOf]

theorem bytesOf_ofNat_leNat {n : Nat} {l : List Byte} (hl : l.length = n) :
    bytesOf n (BitVec.ofNat (8 * n) (leNat l)) = l := by
  apply List.ext_getElem
  · simp [hl]
  · intro i h1 h2
    simp only [bytesOf, List.getElem_map, List.getElem_range]
    exact ofNat_leNat_lane (by omega) hl

theorem ofNat_leNat_bytesOf (n : Nat) (v : BitVec (8 * n)) : BitVec.ofNat (8 * n) (leNat (bytesOf n v)) = v := by
  apply BitVec.eq_of_getLsbD_eq
  intro j hj
  have hb := congrArg (fun b => b.getLsbD (j % 8)) (ofNat_leNat_lane (i := j / 8) (by omega) (length_bytesOf n v))
  simp only [bytesOf, List.getElem_map, List.getElem_range, BitVec.getLsbD_extractLsb',
    show 8 * (j / 8) + j % 8 = j by omega] at hb
  simpa [Nat.mod_lt, bytesOf] using hb

theorem bytesOf_brev (n : Nat) (v : BitVec (8 * n)) : bytesOf n (brev n v) = (bytesOf n v).reverse :=
  bytesOf_ofNat_leNat (by simp)

/-! The cells of an access and the read primitive. -/

@[simp] theorem Memory.length_cells (mem : Memory) (a n : Nat) : (mem.cells a n).length = n := by simp [Memory.cells]

theorem Memory.cells_add (mem : Memory) (a n m : Nat) : mem.cells a (n + m) = mem.cells a n ++ mem.cells (a + n) m := by
  simp [Memory.cells, List.range_add, Nat.add_assoc]

theorem Memory.cells_congr {mem mem' : Memory} {a a' n : Nat} (h : ∀ j, j < n → mem.byte (a + j) = mem'.byte (a' + j)) :
    mem.cells a n = mem'.cells a' n :=
  List.map_congr_left fun i hi => h i (List.mem_range.1 hi)

theorem bytesOf_memRead_le (mem : Memory) (a n : Nat) : bytesOf n (memRead .le mem a n) = mem.cells a n :=
  bytesOf_ofNat_leNat (by simp)

theorem bytesOf_memRead_be (mem : Memory) (a n : Nat) : bytesOf n (memRead .be mem a n) = (mem.cells a n).reverse :=
  bytesOf_ofNat_leNat (by simp)

theorem toNat_memRead_le (mem : Memory) (a n : Nat) : (memRead .le mem a n).toNat = leNat (mem.cells a n) := by
  rw [memRead, BitVec.toNat_ofNat, Nat.mod_eq_of_lt]
  simpa using leNat_lt (mem.cells a n)

theorem toNat_memRead_be (mem : Memory) (a n : Nat) : (memRead .be mem a n).toNat = leNat (mem.cells a n).reverse := by
  rw [memRead, BitVec.toNat_ofNat, Nat.mod_eq_of_lt]
  simpa using leNat_lt (mem.cells a n).reverse

end Sys2Proof.Machine
end

