-- ==== Sys2Proof/Laws/PerInstr.lean ====
section
/-! SUPPORT. The family `Rebuild`: an instruction is its mnemonic with its four operands. Both readings build an instruction with
`Mnemonic.instr`, and both inverses take one apart with `Instr.mnemonic` and the four operand functions. -/

namespace Sys2Proof

/-- The instruction is rebuilt from its mnemonic and operands. -/
def Laws.Rebuild.Statement (i : Instr) : Prop :=
  i.mnemonic.instr i.rt i.ra i.rb i.sh = i

namespace Laws.Rebuild
variable (rt ra rb : RegNo) (sh : Nat)

theorem lbzsx : Statement (.lbzsx rt ra rb sh) := rfl
theorem lbzsux : Statement (.lbzsux rt ra rb sh) := rfl
theorem lhzsx : Statement (.lhzsx rt ra rb sh) := rfl
theorem lhzsux : Statement (.lhzsux rt ra rb sh) := rfl
theorem lhasx : Statement (.lhasx rt ra rb sh) := rfl
theorem lhasux : Statement (.lhasux rt ra rb sh) := rfl
theorem lwzsx : Statement (.lwzsx rt ra rb sh) := rfl
theorem lwzsux : Statement (.lwzsux rt ra rb sh) := rfl
theorem lwasx : Statement (.lwasx rt ra rb sh) := rfl
theorem lwasux : Statement (.lwasux rt ra rb sh) := rfl
theorem ldsx : Statement (.ldsx rt ra rb sh) := rfl
theorem ldsux : Statement (.ldsux rt ra rb sh) := rfl
theorem lhbrsx : Statement (.lhbrsx rt ra rb sh) := rfl
theorem lwbrsx : Statement (.lwbrsx rt ra rb sh) := rfl
theorem ldbrsx : Statement (.ldbrsx rt ra rb sh) := rfl

end Laws.Rebuild

/-- The same for every instruction. -/
theorem Instr.rebuild (i : Instr) : i.mnemonic.instr i.rt i.ra i.rb i.sh = i := by
  cases i <;> rfl

section Built
variable (m : Mnemonic) (rt ra rb : RegNo) (sh : Nat)

@[simp] theorem Mnemonic.instr_mnemonic : (m.instr rt ra rb sh).mnemonic = m := by cases m <;> rfl
@[simp] theorem Mnemonic.instr_rt : (m.instr rt ra rb sh).rt = rt := by cases m <;> rfl
@[simp] theorem Mnemonic.instr_ra : (m.instr rt ra rb sh).ra = ra := by cases m <;> rfl
@[simp] theorem Mnemonic.instr_rb : (m.instr rt ra rb sh).rb = rb := by cases m <;> rfl
@[simp] theorem Mnemonic.instr_sh : (m.instr rt ra rb sh).sh = sh := by cases m <;> rfl

end Built

end Sys2Proof
end

