-- ==== Sys2Proof/Laws/Decode.lean ====
section
/-! SUPPORT. What the parts of the two readings do: the choice of a mnemonic, a field of a word bit by bit, a packed word, the reserved
bits, the operand check, and the pieces of a written line (rules R55 to R67). -/

namespace Sys2Proof

/-! The choice of a mnemonic. -/

@[simp] theorem Mnemonic.mem_all (m : Mnemonic) : m ∈ Mnemonic.all := by cases m <;> decide

theorem Mnemonic.name_injective : Function.Injective Mnemonic.name := by
  intro k m
  cases k <;> cases m <;> first | (intro _; rfl) | decide

theorem Enc.opcode_injective {e : Enc} (h : e.opcodesWf) : Function.Injective e.opcode := by
  intro k m hk
  have hn := h.2
  rw [List.nodup_iff_injective_get] at hn
  have hrow : ∀ a b : Fin 15, e.opcodes[a.val] = e.opcodes[b.val] → a = b := by
    intro a b hab
    have := @hn ⟨a, by simp⟩ ⟨b, by simp⟩ (by simpa using hab)
    ext
    simpa using this
  have := hrow k.row m.row hk
  revert this
  cases k <;> cases m <;> simp [Mnemonic.row]

/-- The mnemonic whose pair a word holds is found by that pair. -/
theorem Enc.find_opcode {e : Enc} (h : e.opcodesWf) (m : Mnemonic) :
    Mnemonic.all.find? (fun k => e.opcode k == e.opcode m) = some m := by
  rcases hf : Mnemonic.all.find? (fun k => e.opcode k == e.opcode m) with _ | k
  · rw [List.find?_eq_none] at hf
    exact absurd (beq_self_eq_true _) (hf m m.mem_all)
  · have := List.find?_some hf
    rw [Enc.opcode_injective h (show e.opcode k = e.opcode m by simpa using this)]

theorem Enc.opcode_of_find {e : Enc} {o : Opcode} {m : Mnemonic}
    (h : Mnemonic.all.find? (fun k => e.opcode k == o) = some m) : e.opcode m = o := by
  simpa using List.find?_some h

theorem Enc.find_opcode_eq_none {e : Enc} {o : Opcode} :
    Mnemonic.all.find? (fun k => e.opcode k == o) = none ↔ ∀ m, e.opcode m ≠ o := by
  simp [List.find?_eq_none]

theorem Mnemonic.find_name (m : Mnemonic) : Mnemonic.all.find? (fun k => k.name == m.name) = some m := by
  cases m <;> decide

/-! Fields and packed words, bit by bit. -/

theorem Field.testBit_put {f : Field} {v : Nat} (hf : f.lo + f.width ≤ 32) (hv : v < 2 ^ f.width) (i : Nat) :
    (f.put v).toNat.testBit i = (decide (f.lo ≤ i ∧ i < f.lo + f.width) && v.testBit (i - f.lo)) := by
  have hlt : v * 2 ^ f.lo < 2 ^ 32 := by
    calc v * 2 ^ f.lo < 2 ^ f.width * 2 ^ f.lo := Nat.mul_lt_mul_of_pos_right hv (by positivity)
      _ = 2 ^ (f.lo + f.width) := by rw [pow_add]; ring
      _ ≤ _ := Nat.pow_le_pow_right (by norm_num) hf
  rw [Field.put, BitVec.toNat_ofNat, Nat.mod_eq_of_lt hlt, Nat.testBit_mul_two_pow]
  by_cases h1 : f.lo ≤ i
  · by_cases h2 : i < f.lo + f.width
    · simp [h1, h2]
    · have : v.testBit (i - f.lo) = false :=
        Nat.testBit_eq_false_of_lt (lt_of_lt_of_le hv (Nat.pow_le_pow_right (by norm_num) (by omega)))
      simp [this]
  · simp [h1]

theorem Field.testBit_get (f : Field) (w : InstrWord) (i : Nat) :
    (f.get w).testBit i = (decide (i < f.width) && w.toNat.testBit (f.lo + i)) := by
  rw [Field.get, Nat.testBit_mod_two_pow, Nat.testBit_div_two_pow, Nat.add_comm]

theorem Field.get_lt (f : Field) (w : InstrWord) : f.get w < 2 ^ f.width :=
  Nat.mod_lt _ (by positivity)

/-- Every field lies in the word and every value in its field. -/
abbrev PackFits (fs : List (Field × Nat)) : Prop :=
  ∀ p ∈ fs, p.1.lo + p.1.width ≤ 32 ∧ p.2 < 2 ^ p.1.width

theorem testBit_packFields {fs : List (Field × Nat)} (h : PackFits fs) (i : Nat) :
    (packFields fs).toNat.testBit i = true ↔
      ∃ p ∈ fs, (p.1.lo ≤ i ∧ i < p.1.lo + p.1.width) ∧ p.2.testBit (i - p.1.lo) = true := by
  induction fs with
  | nil => simp [packFields]
  | cons p fs ih =>
    have ih := ih fun q hq => h q (List.mem_cons_of_mem _ hq)
    have hp := h p (List.mem_cons_self ..)
    have hput := Field.testBit_put hp.1 hp.2 i
    rw [packFields] at ih ⊢
    rw [List.foldr_cons, BitVec.toNat_or, Nat.testBit_or, Bool.or_eq_true, ih, hput]
    simp

/-- A field of a packed word holds the value packed into it. -/
theorem Field.get_packFields {fs : List (Field × Nat)} (h : PackFits fs)
    (hd : fs.Pairwise fun p q => Field.Disjoint p.1 q.1) {p : Field × Nat} (hp : p ∈ fs) :
    p.1.get (packFields fs) = p.2 := by
  have hlt := (h p hp).2
  apply Nat.eq_of_testBit_eq
  intro i
  rw [Field.testBit_get]
  by_cases hi : i < p.1.width
  · rw [decide_eq_true hi, Bool.true_and, Bool.eq_iff_iff, testBit_packFields h]
    constructor
    · rintro ⟨q, hq, hin, hb⟩
      by_cases e : q = p
      · subst e
        rwa [Nat.add_sub_cancel_left] at hb
      · have hd1 : fs.Pairwise (fun x y : Field × Nat => x ≠ y → Field.Disjoint x.1 y.1) :=
          List.Pairwise.imp (by intro a b h _; exact h) hd
        have hd2 : fs.Pairwise (flip fun x y : Field × Nat => x ≠ y → Field.Disjoint x.1 y.1) :=
          List.Pairwise.imp (by intro a b h _; exact h.symm) hd
        have hdis := List.Pairwise.forall_of_forall_of_flip (fun x _ hx => absurd rfl hx) hd1 hd2 hq hp e
        rcases hdis with hdis | hdis <;> omega
    · intro hb
      exact ⟨p, hp, ⟨by omega, by omega⟩, by rwa [Nat.add_sub_cancel_left]⟩
  · rw [decide_eq_false hi, Bool.false_and,
      Nat.testBit_eq_false_of_lt (lt_of_lt_of_le hlt (Nat.pow_le_pow_right (by norm_num) (by omega)))]

/-! Reserved bits. -/

theorem Layout.testBit_covered {l : Layout} (hl : ∀ f ∈ l.fields, f.lo + f.width ≤ 32) (i : Nat) :
    l.covered.toNat.testBit i = true ↔ ∃ f ∈ l.fields, f.lo ≤ i ∧ i < f.lo + f.width := by
  rw [Layout.covered, testBit_packFields]
  · simp only [List.mem_map]
    constructor
    · rintro ⟨_, ⟨f, hf, rfl⟩, h, -⟩
      exact ⟨f, hf, h⟩
    · rintro ⟨f, hf, h⟩
      exact ⟨_, ⟨f, hf, rfl⟩, h, by simp only [Nat.testBit_two_pow_sub_one]; simp; omega⟩
  · intro p hp
    obtain ⟨f, hf, rfl⟩ := List.mem_map.1 hp
    have := Nat.two_pow_pos f.width
    exact ⟨hl f hf, by simp only; omega⟩

/-- The reserved-bit check passes exactly where every 1 of the word lies in a field (rule R64). -/
theorem Layout.reserved_clear {l : Layout} (hl : ∀ f ∈ l.fields, f.lo + f.width ≤ 32) (w : InstrWord) :
    w &&& ~~~l.covered = 0 ↔ ∀ i, w.toNat.testBit i = true → ∃ f ∈ l.fields, f.lo ≤ i ∧ i < f.lo + f.width := by
  constructor
  · intro h i hi
    have hi32 : i < 32 := by
      by_contra hc
      rw [Nat.testBit_eq_false_of_lt (lt_of_lt_of_le w.isLt (Nat.pow_le_pow_right (by norm_num) (by omega)))] at hi
      exact absurd hi (by simp)
    have hbit := congrArg (fun x => x.getLsbD i) h
    simp only [BitVec.getLsbD_and, BitVec.getLsbD_not, hi32, decide_true, Bool.true_and] at hbit
    rw [show w.getLsbD i = true from hi] at hbit
    simp at hbit
    exact (Layout.testBit_covered hl i).1 hbit
  · intro h
    apply BitVec.eq_of_getLsbD_eq
    intro i hi
    simp only [BitVec.getLsbD_and, BitVec.getLsbD_not, hi, decide_true, Bool.true_and]
    rcases hw : w.getLsbD i with _ | _
    · simp
    · have : l.covered.getLsbD i = true := (Layout.testBit_covered hl i).2 (h i hw)
      simp [this]

/-! The readings. -/

theorem decodeOperands_eq_instr {cfg : Config} {m : Mnemonic} {rt ra rb sh : Nat} {i : Instr} :
    decodeOperands cfg m rt ra rb sh = .instr i ↔
      ∃ a b c : RegNo, rt = a ∧ ra = b ∧ rb = c ∧ sh < 2 ^ cfg.shBits ∧ i = m.instr a b c sh := by
  unfold decodeOperands
  split
  · next h =>
    constructor
    · rintro ⟨⟩
      exact ⟨⟨rt, h.1⟩, ⟨ra, h.2.1⟩, ⟨rb, h.2.2.1⟩, rfl, rfl, rfl, h.2.2.2, rfl⟩
    · rintro ⟨a, b, c, rfl, rfl, rfl, -, rfl⟩
      rfl
  · next h =>
    simp only [reduceCtorEq, false_iff]
    rintro ⟨a, b, c, rfl, rfl, rfl, h1, rfl⟩
    exact h ⟨a.2, b.2, c.2, h1⟩

theorem decodeOperands_eq_refused {cfg : Config} {m : Mnemonic} {rt ra rb sh : Nat} {r : DecodeRefusal} :
    decodeOperands cfg m rt ra rb sh = .refused r ↔
      ¬ (rt < 32 ∧ ra < 32 ∧ rb < 32 ∧ sh < 2 ^ cfg.shBits) ∧ r = .operandRange := by
  unfold decodeOperands
  split
  · next h => simp [h]
  · next h => simp [h, eq_comm]

/-- What a word needs to be read as an instruction: a known opcode, clear reserved bits and operands in range. -/
theorem decode_eq_instr {cfg : Config} {w : InstrWord} {i : Instr} :
    decode cfg w = .instr i ↔
      ∃ m, Mnemonic.all.find? (fun m => cfg.enc.opcode m == cfg.enc.layout.opcodeOf w) = some m ∧
        w &&& ~~~cfg.enc.layout.covered = 0 ∧
        decodeOperands cfg m (cfg.enc.layout.rt.get w) (cfg.enc.layout.ra.get w) (cfg.enc.layout.rb.get w)
          (cfg.enc.layout.sh.get w) = .instr i := by
  unfold decode
  simp only
  split
  · next h => simp [h]
  · next m h =>
    rw [h]
    split_ifs with h2
    · simp [show w &&& ~~~cfg.enc.layout.covered = 0#32 from h2]
    · simp [show ¬ w &&& ~~~cfg.enc.layout.covered = 0#32 from h2]

/-! Written lines. -/

theorem splitAtChar_append {c : Char} {a b : List Char} (h : c ∉ a) : splitAtChar c (a ++ c :: b) = some (a, b) := by
  induction a with
  | nil => simp [splitAtChar]
  | cons d a ih =>
    simp at h
    simp [splitAtChar, ih h.2, Ne.symm h.1]

theorem parseNumber_toDigits (n : Nat) : parseNumber (Nat.toDigits 10 n) = some n := by
  have h1 : Nat.toDigits 10 n ≠ [] := Nat.toDigits_ne_nil
  have h2 : (Nat.toDigits 10 n).all Char.isDigit = true :=
    List.all_eq_true.2 fun c hc => Nat.isDigit_of_mem_toDigits (by decide) (by decide) hc
  simp [parseNumber, h1, h2, Nat.ofDigitChars_toDigits]

theorem comma_not_mem_toDigits (n : Nat) : ',' ∉ Nat.toDigits 10 n := by
  intro h
  exact absurd (Nat.isDigit_of_mem_toDigits (by decide) (by decide) h) (by decide)

end Sys2Proof
end

