-- ==== Sys2Proof/Laws/Memory.lean ====
section
/-! SUPPORT. Memory: what a read after a write gives, and that every memory operation keeps the canonical form. -/

namespace Sys2Proof.Machine

@[simp] theorem Memory.byte_nil (a : Nat) : Memory.byte [] a = unlistedByte := rfl

/-- An address below every listed one reads as unlisted. -/
theorem Memory.byte_of_lt {mem : Memory} {a : Nat} (h : ∀ c ∈ mem, a < c.1) : mem.byte a = unlistedByte := by
  induction mem with
  | nil => rfl
  | cons c rest ih =>
    obtain ⟨k, b⟩ := c
    have hk : a < k := h _ (List.mem_cons_self ..)
    have := ih fun c hc => h c (List.mem_cons_of_mem _ hc)
    simp [Memory.byte, this]
    omega

/-- A cell written reads as written, and every other cell reads as before. -/
theorem Memory.byte_setByte {mem : Memory} (hs : mem.Pairwise (fun c d => c.1 < d.1)) (a : Nat) (b : Byte) (x : Nat) :
    (mem.setByte a b).byte x = if x = a then b else mem.byte x := by
  induction mem with
  | nil =>
    rcases eq_or_ne a x with rfl | hx
    · by_cases hb : b = unlistedByte <;> simp [Memory.setByte, Memory.byte, hb]
    · by_cases hb : b = unlistedByte <;> simp [Memory.setByte, Memory.byte, hb, hx, hx.symm]
  | cons c rest ih =>
    obtain ⟨k, d⟩ := c
    obtain ⟨hk, hrest⟩ := List.pairwise_cons.1 hs
    have below (y : Nat) (hy : y ≤ k) : Memory.byte rest y = unlistedByte :=
      Memory.byte_of_lt fun c hc => lt_of_le_of_lt hy (hk c hc)
    simp only [Memory.setByte]
    rcases lt_trichotomy a k with h | h | h
    · by_cases hb : b = unlistedByte
      · simp only [h, hb, if_true, Memory.byte]
        by_cases hx : x = a
        · subst x; simp [below a h.le]; omega
        · simp [hx]
      · simp only [h, hb, if_true, if_false, Memory.byte]
        rcases eq_or_ne a x with rfl | hx
        · simp
        · simp [hx, hx.symm]
    · subst a
      by_cases hb : b = unlistedByte
      · simp only [hb, lt_irrefl, if_true, if_false, Memory.byte]
        by_cases hx : x = k
        · subst x; simp [below k le_rfl]
        · simp [hx, eq_comm]
      · simp only [hb, lt_irrefl, if_true, if_false, Memory.byte]
        by_cases hx : x = k <;> simp [hx, eq_comm]
    · have h1 : ¬ a < k := by omega
      have h2 : ¬ a = k := by omega
      simp only [h1, h2, if_false, Memory.byte, ih hrest]
      by_cases hx : k = x
      · subst x; simp; omega
      · simp [hx]

/-- Every cell after a write is the written one or a cell from before. -/
theorem Memory.mem_setByte {mem : Memory} {a : Nat} {b : Byte} {c : Host.Cell} (h : c ∈ mem.setByte a b) :
    c = (a, b) ∧ b ≠ unlistedByte ∨ c ∈ mem := by
  induction mem with
  | nil =>
    simp only [Memory.setByte] at h
    split at h
    · simp at h
    · next hb => exact .inl ⟨by simpa using h, hb⟩
  | cons d rest ih =>
    obtain ⟨k, e⟩ := d
    simp only [Memory.setByte] at h
    split at h
    · split at h
      · exact .inr h
      · next hb =>
        rcases List.mem_cons.1 h with rfl | h
        · exact .inl ⟨rfl, hb⟩
        · exact .inr h
    · split at h
      · split at h
        · exact .inr (List.mem_cons_of_mem _ h)
        · next hb =>
          rcases List.mem_cons.1 h with rfl | h
          · exact .inl ⟨rfl, hb⟩
          · exact .inr (List.mem_cons_of_mem _ h)
      · rcases List.mem_cons.1 h with rfl | h
        · exact .inr (List.mem_cons_self ..)
        · exact (ih h).imp id (List.mem_cons_of_mem _)

/-- A write keeps the canonical form. -/
theorem Memory.wf_setByte {mem : Memory} {a : Nat} (b : Byte) (h : mem.wf) (ha : a < 2 ^ 64) : (mem.setByte a b).wf := by
  obtain ⟨hs, hc⟩ := h
  refine ⟨?_, fun c h => ?_⟩
  · induction mem with
    | nil => simp only [Memory.setByte]; split <;> simp
    | cons d rest ih =>
      obtain ⟨k, e⟩ := d
      obtain ⟨hk, hrest⟩ := List.pairwise_cons.1 hs
      simp only [Memory.setByte]
      split
      · next hlt =>
        split
        · exact hs
        · refine List.pairwise_cons.2 ⟨fun c hc => ?_, hs⟩
          rcases List.mem_cons.1 hc with rfl | hc
          · exact hlt
          · exact lt_trans hlt (hk c hc)
      · next hnl =>
        split
        · next he =>
          split
          · exact hrest
          · exact List.pairwise_cons.2 ⟨fun c hc => he ▸ hk c hc, hrest⟩
        · next hne =>
          refine List.pairwise_cons.2 ⟨fun c hm => ?_, ih hrest fun c hm => hc c (List.mem_cons_of_mem _ hm)⟩
          rcases Memory.mem_setByte hm with ⟨rfl, -⟩ | hm
          · simp only; omega
          · exact hk c hm
  · rcases Memory.mem_setByte h with ⟨rfl, hb⟩ | h
    · exact ⟨hb, ha⟩
    · exact hc c h

/-- Listing an image of a launch state keeps the canonical form. -/
theorem Memory.wf_setBytes {mem : Memory} {a : Nat} (bs : List Byte) (h : mem.wf) (ha : a + bs.length ≤ 2 ^ 64) :
    (mem.setBytes a bs).wf := by
  induction bs generalizing mem a with
  | nil => exact h
  | cons b bs ih =>
    simp only [List.length_cons] at ha
    exact ih (Memory.wf_setByte b h (by omega)) (by omega)

theorem State.reset_mem_wf : State.reset.mem.wf := by decide

end Sys2Proof.Machine
end

