-- ==== Sys2Proof/Laws/State.lean ====
section
/-! SUPPORT. One lemma per field per update of `State`, so that no later proof unfolds a record update; the register file's read and
write laws. -/

namespace Sys2Proof.Machine

section SetReg
variable (s : State) (i : RegNo) (w : Word)

@[simp] theorem State.setReg_pc : (s.setReg i w).pc = s.pc := rfl
@[simp] theorem State.setReg_mem : (s.setReg i w).mem = s.mem := rfl
@[simp] theorem State.setReg_base : (s.setReg i w).base = s.base := rfl
@[simp] theorem State.setReg_text : (s.setReg i w).text = s.text := rfl
@[simp] theorem State.setReg_cfg : (s.setReg i w).cfg = s.cfg := rfl

@[simp] theorem State.reg_setReg_self : (s.setReg i w).reg i = .value w := by
  simp [State.reg, State.setReg]

theorem State.reg_setReg_of_ne {j : RegNo} (h : j ≠ i) : (s.setReg i w).reg j = s.reg j := by
  have : i.val ≠ j.val := fun e => h (Fin.ext e.symm)
  simp [State.reg, State.setReg, Vector.getElem_set_ne _ _ this]

theorem State.reg_setReg (j : RegNo) : (s.setReg i w).reg j = if j = i then .value w else s.reg j := by
  split
  · subst j; exact s.reg_setReg_self i w
  · next h => exact s.reg_setReg_of_ne i w h

end SetReg

section Advance
variable (s : State)

@[simp] theorem State.advance_pc : s.advance.pc = s.pc + 4 := rfl
@[simp] theorem State.advance_regs : s.advance.regs = s.regs := rfl
@[simp] theorem State.advance_reg (i : RegNo) : s.advance.reg i = s.reg i := rfl
@[simp] theorem State.advance_mem : s.advance.mem = s.mem := rfl
@[simp] theorem State.advance_base : s.advance.base = s.base := rfl
@[simp] theorem State.advance_text : s.advance.text = s.text := rfl
@[simp] theorem State.advance_cfg : s.advance.cfg = s.cfg := rfl

end Advance

section WithFetchWord
variable (s : State) (nbits w : Nat)

@[simp] theorem State.withFetchWord_pc : (s.withFetchWord nbits w).pc = s.pc := rfl
@[simp] theorem State.withFetchWord_regs : (s.withFetchWord nbits w).regs = s.regs := rfl
@[simp] theorem State.withFetchWord_mem : (s.withFetchWord nbits w).mem = s.mem := rfl
@[simp] theorem State.withFetchWord_base : (s.withFetchWord nbits w).base = s.pc := rfl
@[simp] theorem State.withFetchWord_text :
    (s.withFetchWord nbits w).text = .binary [BitVec.ofNat 32 (w % 2 ^ nbits)] := rfl
@[simp] theorem State.withFetchWord_cfg : (s.withFetchWord nbits w).cfg = s.cfg := rfl

end WithFetchWord

/-- Two states with equal fields, the registers compared one by one, are equal. -/
theorem State.ext_regs {s t : State} (regs : ∀ i, s.reg i = t.reg i) (pc : s.pc = t.pc) (mem : s.mem = t.mem)
    (base : s.base = t.base) (text : s.text = t.text) (cfg : s.cfg = t.cfg) : s = t := by
  have : s.regs = t.regs := Vector.ext fun i h => regs ⟨i, h⟩
  cases s; cases t; simp_all

end Sys2Proof.Machine
end

