-- ==== Sys2Proof/Laws/Ops.lean ====
section
/-! SUPPORT. One lemma for each shared operation that says once everything it can do: sequencing, operand reads, the two
effective addresses, the checked read, the two load shapes, the fetch and the step. Later proofs cite these and unfold nothing. -/

namespace Sys2Proof.Machine

/-! Sequencing. -/

section AndThen
variable {α β : Type} {r : Result α} {k : α → Result β}

@[simp] theorem andThen_next (a : α) (k : α → Result β) : Result.andThen (.next a) k = k a := rfl
@[simp] theorem andThen_fault (f : Fault) (k : α → Result β) : Result.andThen (.fault f) k = .fault f := rfl
@[simp] theorem andThen_refused (f : Refusal) (k : α → Result β) : Result.andThen (.refused f) k = .refused f := rfl

theorem andThen_eq_next {b : β} : Result.andThen r k = .next b ↔ ∃ a, r = .next a ∧ k a = .next b := by
  cases r <;> simp

theorem andThen_eq_fault {f : Fault} :
    Result.andThen r k = .fault f ↔ r = .fault f ∨ ∃ a, r = .next a ∧ k a = .fault f := by
  cases r <;> simp

theorem andThen_eq_refused {f : Refusal} :
    Result.andThen r k = .refused f ↔ r = .refused f ∨ ∃ a, r = .next a ∧ k a = .refused f := by
  cases r <;> simp

end AndThen

/-! Operand reads (rules R12, R97). -/

section Operands
variable (s : State) (i ra rb : RegNo) (sh : Nat)

theorem readReg_eq_next {w : Word} : readReg s i = .next w ↔ s.reg i = .value w := by
  unfold readReg; cases s.reg i <;> simp

theorem readReg_eq_fault {f : Fault} : readReg s i = .fault f ↔ s.reg i = .noValue ∧ f = .uninitRead i := by
  unfold readReg; cases s.reg i <;> simp [eq_comm]

theorem readReg_ne_refused {r : Refusal} : readReg s i ≠ .refused r := by
  unfold readReg; cases s.reg i <;> simp

@[simp] theorem gprz_zero : gprz s 0 = .next 0 := rfl

theorem gprz_of_ne_zero {ra : RegNo} (h : ra ≠ 0) : gprz s ra = readReg s ra := by simp [gprz, h]

theorem gprz_eq_next {w : Word} : gprz s ra = .next w ↔ (ra = 0 ∧ w = 0) ∨ (ra ≠ 0 ∧ s.reg ra = .value w) := by
  by_cases h : ra = 0
  · subst h; simp only [gprz_zero, Host.Outcome.next.injEq, true_and, ne_eq, not_true, false_and, or_false]; exact eq_comm
  · simp [gprz, h, readReg_eq_next]

theorem gprz_eq_fault {f : Fault} : gprz s ra = .fault f ↔ ra ≠ 0 ∧ s.reg ra = .noValue ∧ f = .uninitRead ra := by
  by_cases h : ra = 0
  · simp [gprz, h]
  · simp [gprz, h, readReg_eq_fault]

theorem gprz_ne_refused {r : Refusal} : gprz s ra ≠ .refused r := by
  by_cases h : ra = 0
  · simp [gprz, h]
  · simp [gprz, h, readReg_ne_refused]

end Operands

/-! Effective addresses (rules R69, R70). -/

section Address
variable {s : State} {ra rb : RegNo} {sh : Nat}

/-- The shifted index is the product by 2^(SH+1), modulo 2^64, whatever SH is. -/
theorem shiftedIndex_toNat (x : Word) (sh : Nat) : (shiftedIndex x sh).toNat = x.toNat * 2 ^ (sh + 1) % 2 ^ 64 := by
  simp [shiftedIndex, Nat.shiftLeft_eq]

theorem indexedEA_eq_next {ea : Word} :
    indexedEA s ra rb sh = .next ea ↔
      ∃ b x, gprz s ra = .next b ∧ s.reg rb = .value x ∧ ea = b + shiftedIndex x sh := by
  simp only [indexedEA, andThen_eq_next, readReg_eq_next, Host.Outcome.next.injEq]
  constructor
  · rintro ⟨b, hb, x, hx, rfl⟩; exact ⟨b, x, hb, hx, rfl⟩
  · rintro ⟨b, x, hb, hx, rfl⟩; exact ⟨b, hb, x, hx, rfl⟩

theorem updateEA_eq_next {ea : Word} :
    updateEA s ra rb sh = .next ea ↔
      ∃ b x, s.reg ra = .value b ∧ s.reg rb = .value x ∧ ea = b + shiftedIndex x sh := by
  simp only [updateEA, andThen_eq_next, readReg_eq_next, Host.Outcome.next.injEq]
  constructor
  · rintro ⟨b, hb, x, hx, rfl⟩; exact ⟨b, x, hb, hx, rfl⟩
  · rintro ⟨b, x, hb, hx, rfl⟩; exact ⟨b, hb, x, hx, rfl⟩

theorem indexedEA_eq_fault {f : Fault} :
    indexedEA s ra rb sh = .fault f ↔
      (ra ≠ 0 ∧ s.reg ra = .noValue ∧ f = .uninitRead ra) ∨
      ((∃ b, gprz s ra = .next b) ∧ s.reg rb = .noValue ∧ f = .uninitRead rb) := by
  simp only [indexedEA, andThen_eq_fault, gprz_eq_fault, readReg_eq_fault, reduceCtorEq, and_false, exists_false, or_false]
  simp only [← exists_and_right]

theorem updateEA_eq_fault {f : Fault} :
    updateEA s ra rb sh = .fault f ↔
      (s.reg ra = .noValue ∧ f = .uninitRead ra) ∨
      ((∃ b, s.reg ra = .value b) ∧ s.reg rb = .noValue ∧ f = .uninitRead rb) := by
  simp only [updateEA, andThen_eq_fault, readReg_eq_fault, readReg_eq_next, reduceCtorEq, and_false, exists_false, or_false]
  simp only [← exists_and_right]

theorem indexedEA_ne_refused {r : Refusal} : indexedEA s ra rb sh ≠ .refused r := by
  simp [indexedEA, andThen_eq_refused, gprz_ne_refused, readReg_ne_refused]

theorem updateEA_ne_refused {r : Refusal} : updateEA s ra rb sh ≠ .refused r := by
  simp [updateEA, andThen_eq_refused, readReg_ne_refused]

end Address

/-! Admission and the checked read (rules R36, R40 to R42, R99). -/

theorem admitted_iff (cfg : Config) (a : Nat) :
    admitted cfg a = true ↔ ∃ r ∈ cfg.memmap, r.base ≤ a ∧ a < r.base + r.size := by
  simp [admitted, Region.admits]

theorem admitAll_iff (cfg : Config) (a n : Nat) : admitAll cfg a n = true ↔ ∀ i, i < n → admitted cfg (a + i) = true := by
  simp [admitAll]

section Access
variable {s : State} {ea : Word} {n : Nat}

theorem loadElement_eq_next {v : BitVec (8 * n)} :
    loadElement s ea n = .next v ↔
      ea.toNat + n ≤ 2 ^ 64 ∧ (ea.toNat % n = 0 ∨ s.cfg.misalign = .perform) ∧ admitAll s.cfg ea.toNat n = true ∧
        v = memRead s.cfg.endian s.mem ea.toNat n := by
  unfold loadElement
  generalize 2 ^ 64 = top
  rw [eq_comm (a := v)]
  cases h : s.cfg.misalign <;> split_ifs <;> simp <;> simp_all

theorem loadElement_eq_fault {f : Fault} :
    loadElement s ea n = .fault f ↔
      ea.toNat + n ≤ 2 ^ 64 ∧
        ((ea.toNat % n ≠ 0 ∧ s.cfg.misalign = .fault ∧ f = .alignmentFault ea) ∨
         ((ea.toNat % n = 0 ∨ s.cfg.misalign = .perform) ∧ admitAll s.cfg ea.toNat n = false ∧ f = .storageFault ea)) := by
  unfold loadElement
  generalize 2 ^ 64 = top
  rw [eq_comm (a := f), eq_comm (a := f)]
  cases h : s.cfg.misalign <;> split_ifs <;> simp <;> simp_all

theorem loadElement_eq_refused {r : Refusal} :
    loadElement s ea n = .refused r ↔
      (2 ^ 64 < ea.toNat + n ∧ r = .addressWrap) ∨
      (ea.toNat + n ≤ 2 ^ 64 ∧ ea.toNat % n ≠ 0 ∧ s.cfg.misalign = .refuse ∧ r = .misaligned) := by
  unfold loadElement
  generalize 2 ^ 64 = top
  rw [eq_comm (a := r), eq_comm (a := r)]
  cases h : s.cfg.misalign <;> split_ifs <;> simp <;> simp_all

end Access

/-! The two load shapes (rule R71). -/

section Load
variable {m : Mnemonic} {n : Nat} {ext : BitVec (8 * n) → Word} {rt ra rb : RegNo} {sh : Nat} {s t : State}

theorem loadIndexed_eq_next :
    loadIndexed n ext rt ra rb sh s = .next t ↔
      ∃ ea v, indexedEA s ra rb sh = .next ea ∧ loadElement s ea n = .next v ∧ t = (s.setReg rt (ext v)).advance := by
  simp only [loadIndexed, andThen_eq_next, Host.Outcome.next.injEq]
  constructor
  · rintro ⟨ea, h, v, hv, rfl⟩; exact ⟨ea, v, h, hv, rfl⟩
  · rintro ⟨ea, v, h, hv, rfl⟩; exact ⟨ea, h, v, hv, rfl⟩

theorem loadIndexed_eq_fault {f : Fault} :
    loadIndexed n ext rt ra rb sh s = .fault f ↔
      indexedEA s ra rb sh = .fault f ∨ ∃ ea, indexedEA s ra rb sh = .next ea ∧ loadElement s ea n = .fault f := by
  simp [loadIndexed, andThen_eq_fault]

theorem loadIndexed_eq_refused {r : Refusal} :
    loadIndexed n ext rt ra rb sh s = .refused r ↔
      ∃ ea, indexedEA s ra rb sh = .next ea ∧ loadElement s ea n = .refused r := by
  simp [loadIndexed, andThen_eq_refused, indexedEA_ne_refused]

theorem loadUpdate_of_invalid (h : ra = 0 ∨ ra = rt) : loadUpdate m n ext rt ra rb sh s = .fault (.invalidForm m rt ra) := by
  simp [loadUpdate, h]

theorem loadUpdate_eq_next :
    loadUpdate m n ext rt ra rb sh s = .next t ↔
      ra ≠ 0 ∧ ra ≠ rt ∧ ∃ ea v, updateEA s ra rb sh = .next ea ∧ loadElement s ea n = .next v ∧
        t = ((s.setReg rt (ext v)).setReg ra ea).advance := by
  by_cases h : ra = 0 ∨ ra = rt
  · simp only [loadUpdate_of_invalid h, reduceCtorEq, false_iff]
    rintro ⟨h0, h1, -⟩; exact h.elim h0 h1
  · rw [not_or] at h
    simp only [loadUpdate, h.1, h.2, or_self, if_false, andThen_eq_next, Host.Outcome.next.injEq, ne_eq, not_false_eq_true,
      true_and]
    constructor
    · rintro ⟨ea, h, v, hv, rfl⟩; exact ⟨ea, v, h, hv, rfl⟩
    · rintro ⟨ea, v, h, hv, rfl⟩; exact ⟨ea, h, v, hv, rfl⟩

theorem loadUpdate_eq_fault {f : Fault} :
    loadUpdate m n ext rt ra rb sh s = .fault f ↔
      ((ra = 0 ∨ ra = rt) ∧ f = .invalidForm m rt ra) ∨
      (ra ≠ 0 ∧ ra ≠ rt ∧
        (updateEA s ra rb sh = .fault f ∨ ∃ ea, updateEA s ra rb sh = .next ea ∧ loadElement s ea n = .fault f)) := by
  by_cases h : ra = 0 ∨ ra = rt
  · simp only [loadUpdate_of_invalid h, h, true_and, Host.Outcome.fault.injEq]
    constructor
    · exact fun e => .inl e.symm
    · rintro (e | ⟨h0, h1, -⟩)
      · exact e.symm
      · exact absurd h (by simp [h0, h1])
  · have h' := not_or.1 h
    simp [loadUpdate, h'.1, h'.2, andThen_eq_fault]

theorem loadUpdate_eq_refused {r : Refusal} :
    loadUpdate m n ext rt ra rb sh s = .refused r ↔
      ra ≠ 0 ∧ ra ≠ rt ∧ ∃ ea, updateEA s ra rb sh = .next ea ∧ loadElement s ea n = .refused r := by
  by_cases h : ra = 0 ∨ ra = rt
  · simp only [loadUpdate_of_invalid h, reduceCtorEq, false_iff]
    rintro ⟨h0, h1, -⟩; exact h.elim h0 h1
  · have h' := not_or.1 h
    simp [loadUpdate, h'.1, h'.2, andThen_eq_refused, updateEA_ne_refused]

end Load

/-! The fetch and the step (rules R91, R96, R109). -/

section Step
variable {s t : State}

theorem fetch_eq_next {i : Instr} :
    fetch s = .next i ↔
      s.offset % 4 = 0 ∧ s.offset / 4 ≠ s.text.length ∧ s.text.read? s.cfg (s.offset / 4) = some (.instr i) := by
  unfold fetch
  split_ifs with h1 h2
  · simp [h1]
  · simp [h2]
  · simp only [h2, ne_eq, not_false_eq_true, true_and, not_not.1 h1]
    split <;> simp_all

/-! Where the fetch looks. -/

/-- pc is the base of the program text and its offset (modulo 2^64). -/
theorem State.pc_eq_base_add_offset (s : State) : s.pc = s.base + BitVec.ofNat 64 s.offset := by
  rw [State.offset, BitVec.ofNat_toNat, BitVec.setWidth_eq]
  ring

theorem State.offset_of_pc {k : Nat} (hk : 4 * k < 2 ^ 64) (h : s.pc = s.base + BitVec.ofNat 64 (4 * k)) :
    s.offset = 4 * k := by
  rw [State.offset, h, show s.base + BitVec.ofNat 64 (4 * k) - s.base = BitVec.ofNat 64 (4 * k) by ring,
    BitVec.toNat_ofNat, Nat.mod_eq_of_lt hk]

theorem Text.read?_eq_none {cfg : Config} {k : Nat} {t : Text} : t.read? cfg k = none ↔ t.length ≤ k := by
  cases t <;> simp [Text.read?, Text.length]

/-- The fetch ends the run exactly at the end address. -/
theorem fetch_eq_programEnd : fetch s = .refused .programEnd ↔ s.offset % 4 = 0 ∧ s.offset / 4 = s.text.length := by
  unfold fetch
  split_ifs with h1 h2
  · simp [h1]
  · simp [h2]
    omega
  · simp only [h2, and_false, iff_false]
    split
    · simp
    · next r _ => cases r <;> simp [refusalOf]
    · simp

theorem fetch_ne_fault {f : Fault} : fetch s ≠ .fault f := by
  unfold fetch
  split_ifs
  · simp
  · simp
  · split <;> simp

theorem step_eq_next : step s = .next t ↔ ∃ i, fetch s = .next i ∧ exec i s = .next t :=
  andThen_eq_next

theorem step_eq_fault {f : Fault} : step s = .fault f ↔ ∃ i, fetch s = .next i ∧ exec i s = .fault f := by
  simp [step, andThen_eq_fault, fetch_ne_fault]

theorem step_eq_refused {r : Refusal} :
    step s = .refused r ↔ fetch s = .refused r ∨ ∃ i, fetch s = .next i ∧ exec i s = .refused r :=
  andThen_eq_refused

end Step

/-! What every instruction does: each meaning is one of the two load shapes, so one inversion serves all fifteen. -/

/-- Where an instruction completes, its target and, in an update form, its base are written, pc moves on by 4 and nothing else
changes. -/
theorem exec_eq_next {i : Instr} {s t : State} (h : exec i s = .next t) :
    ∃ w ea : Word,
      (i.mnemonic.isUpdate = false ∧ t = (s.setReg i.rt w).advance) ∨
      (i.mnemonic.isUpdate = true ∧ i.ra ≠ 0 ∧ i.ra ≠ i.rt ∧ t = ((s.setReg i.rt w).setReg i.ra ea).advance) := by
  cases i <;>
    first
      | (obtain ⟨ea, v, -, -, rfl⟩ := loadIndexed_eq_next.1 h
         exact ⟨_, ea, .inl ⟨rfl, rfl⟩⟩)
      | (obtain ⟨h0, h1, ea, v, -, -, rfl⟩ := loadUpdate_eq_next.1 h
         exact ⟨_, ea, .inr ⟨rfl, h0, h1, rfl⟩⟩)

/-- The conversion of each instruction's loaded element (rules R73 to R88), as a table for the two lemmas below. -/
def Mnemonic.conversion : (m : Mnemonic) → BitVec (8 * m.accessBytes) → Word
  | .lbzsx | .lbzsux | .lhzsx | .lhzsux | .lwzsx | .lwzsux => zext64
  | .lhasx | .lhasux | .lwasx | .lwasux => sext64
  | .ldsx | .ldsux => fun v => v
  | .lhbrsx => fun v => zext64 (brev 2 v)
  | .lwbrsx => fun v => zext64 (brev 4 v)
  | .ldbrsx => fun v => brev 8 v

theorem exec_eq_loadIndexed (i : Instr) (hu : i.mnemonic.isUpdate = false) (s : State) :
    exec i s = loadIndexed i.mnemonic.accessBytes (Mnemonic.conversion i.mnemonic) i.rt i.ra i.rb i.sh s := by
  cases i <;> first | rfl | exact absurd hu Bool.noConfusion

theorem exec_eq_loadUpdate (i : Instr) (hu : i.mnemonic.isUpdate = true) (s : State) :
    exec i s = loadUpdate i.mnemonic i.mnemonic.accessBytes (Mnemonic.conversion i.mnemonic) i.rt i.ra i.rb i.sh s := by
  cases i <;> first | rfl | exact absurd hu Bool.noConfusion

end Sys2Proof.Machine
end

