-- ==== Sys2Proof/Laws/Run.lean ====
section
/-! SUPPORT. Runs: one step first, one step last, and the induction over a run packaged once. -/

namespace Sys2Proof.Machine
variable {s t : State} {k : Nat}

theorem reaches_zero : Reaches s 0 t ↔ s = t := by simp [Reaches, run]

theorem reaches_succ : Reaches s (k + 1) t ↔ ∃ u, step s = .next u ∧ Reaches u k t :=
  andThen_eq_next

/-- A run of k + 1 steps is a run of k steps and one more. -/
theorem reaches_succ_last : Reaches s (k + 1) t ↔ ∃ u, Reaches s k u ∧ step u = .next t := by
  induction k generalizing s with
  | zero => simp [reaches_succ, reaches_zero]
  | succ k ih =>
    rw [reaches_succ]
    constructor
    · rintro ⟨u, hu, hr⟩
      obtain ⟨v, hv, hst⟩ := ih.1 hr
      exact ⟨v, reaches_succ.2 ⟨u, hu, hv⟩, hst⟩
    · rintro ⟨v, hr, hst⟩
      obtain ⟨u, hu, hr⟩ := reaches_succ.1 hr
      exact ⟨u, hu, ih.2 ⟨v, hr, hst⟩⟩

/-- What holds at the start of a run and is kept by every step holds at its end. -/
theorem Reaches.induct {P : State → Prop} (keeps : ∀ s t, step s = .next t → P s → P t) (hr : Reaches s k t) (h : P s) :
    P t := by
  induction k generalizing s with
  | zero => exact reaches_zero.1 hr ▸ h
  | succ k ih =>
    obtain ⟨u, hu, hr⟩ := reaches_succ.1 hr
    exact ih hr (keeps _ _ hu h)

/-- The host's run of any machine, one step first. -/
theorem core_run_succ (M : Host.Core) (k : Nat) (s : M.State) :
    M.run (k + 1) s = (match M.step s with
      | .next u => M.run k u
      | .fault f => .fault f
      | .refused r => .refused r) := rfl

/-- The host's run of this machine is `run`. -/
theorem core_run_eq_run (k : Nat) (s : State) : Host.Core.run Sys2Proof.core k s = run k s := by
  induction k generalizing s with
  | zero => rfl
  | succ k ih =>
    have hstep : Sys2Proof.core.step s = step s := rfl
    refine (core_run_succ Sys2Proof.core k s).trans ?_
    unfold run
    rw [hstep]
    cases step s with
    | next u => exact ih u
    | fault f => rfl
    | refused r => rfl

end Sys2Proof.Machine
end

