-- ==== Sys2Proof/Machine/Flags.lean ====
section
/-! DEFINITION. Flags: there are none. "No instruction in scope writes a flag, a condition code or any special register" and
none reads one (rule R24); "the model has no flag or condition-code state" (rule R25) and "no system or control register" (rule
R26). All fifteen pages end with "Special Registers Altered: None". So this file computes nothing. -/
end

