-- ==== Sys2Proof/Tests/Slice0.lean ====
section
/-! SUPPORT. Small tests, each one evaluation, and the witnesses of the statements' hypotheses. The expected results are the vectors of
95_test_vectors.md (named V<n> as there) and words written out from the layout of rule R55; the opcode numbers in those words are the
placeholders of log entry 8. -/

namespace Sys2Proof.Tests
open Sys2Proof.Machine Sys2Proof.Claims

/-! WellFormed refuses: one ill-formed term for each check. -/

theorem test_wf_refuses_sh_too_wide : ¬ (Instr.lbzsx 3 4 5 4).wf Config.initial := by decide
theorem test_wf_admits_largest_sh : (Instr.lbzsx 3 4 5 3).wf Config.initial := by decide
theorem test_initial_config_wf : Config.initial.wf := by decide

/-- The configuration of reset with another layout. -/
def withLayout (l : Layout) : Config := { Config.initial with enc := { Config.initial.enc with layout := l } }

/-- The configuration of reset with other opcode numbers. -/
def withOpcodes (o : Vector Opcode 15) : Config := { Config.initial with enc := { Config.initial.enc with opcodes := o } }

theorem test_wf_refuses_no_sh_bits :
    ¬ Config.wf { withLayout { Layout.provisional with sh := ⟨9, 0⟩ } with shBits := 0 } := by decide
theorem test_wf_refuses_rt_width : ¬ (withLayout { Layout.provisional with rt := ⟨21, 4⟩ }).wf := by decide
theorem test_wf_refuses_ra_width : ¬ (withLayout { Layout.provisional with ra := ⟨16, 4⟩ }).wf := by decide
theorem test_wf_refuses_rb_width : ¬ (withLayout { Layout.provisional with rb := ⟨11, 4⟩ }).wf := by decide
theorem test_wf_refuses_sh_width : ¬ Config.wf { Config.initial with shBits := 3 } := by decide
theorem test_wf_refuses_field_past_word : ¬ (withLayout { Layout.provisional with po := ⟨27, 6⟩ }).wf := by decide
theorem test_wf_refuses_overlap : ¬ (withLayout { Layout.provisional with xo := ⟨2, 8⟩ }).wf := by decide
theorem test_wf_refuses_po_too_wide : ¬ (withOpcodes (placeholderOpcodes.set 3 ⟨64, 3⟩)).wf := by decide
theorem test_wf_refuses_xo_too_wide : ¬ (withOpcodes (placeholderOpcodes.set 3 ⟨0, 256⟩)).wf := by decide
theorem test_wf_refuses_equal_opcodes : ¬ (withOpcodes (placeholderOpcodes.set 3 ⟨0, 2⟩)).wf := by decide
theorem test_memory_wf_refuses_unsorted : ¬ Memory.wf [(2, 1), (1, 1)] := by decide
theorem test_memory_wf_refuses_unlisted_value : ¬ Memory.wf [(1, 0)] := by decide
theorem test_memory_wf_refuses_past_top : ¬ Memory.wf [(2 ^ 64, 1)] := by decide

/-! Decoding: the fields of rule R55 written out, PO RT RA RB SH XO 0. -/

theorem test_decode_lbzsx : decode Config.initial 0b000000_00011_10001_11110_00_00000000_0 = .instr (.lbzsx 3 17 30 0) := by decide
theorem test_decode_lbzsux : decode Config.initial 0b000000_00100_10011_11101_01_00000001_0 = .instr (.lbzsux 4 19 29 1) := by decide
theorem test_decode_lhzsx : decode Config.initial 0b000000_00101_10101_11100_10_00000010_0 = .instr (.lhzsx 5 21 28 2) := by decide
theorem test_decode_lhzsux : decode Config.initial 0b000000_00110_10111_11011_11_00000011_0 = .instr (.lhzsux 6 23 27 3) := by decide
theorem test_decode_lhasx : decode Config.initial 0b000000_00111_11001_11010_00_00000100_0 = .instr (.lhasx 7 25 26 0) := by decide
theorem test_decode_lhasux : decode Config.initial 0b000000_01000_11011_11001_01_00000101_0 = .instr (.lhasux 8 27 25 1) := by decide
theorem test_decode_lwzsx : decode Config.initial 0b000000_01001_11101_11000_10_00000110_0 = .instr (.lwzsx 9 29 24 2) := by decide
theorem test_decode_lwzsux : decode Config.initial 0b000000_01010_11111_10111_11_00000111_0 = .instr (.lwzsux 10 31 23 3) := by decide
theorem test_decode_lwasx : decode Config.initial 0b000000_01011_00001_10110_00_00001000_0 = .instr (.lwasx 11 1 22 0) := by decide
theorem test_decode_lwasux : decode Config.initial 0b000000_01100_00011_10101_01_00001001_0 = .instr (.lwasux 12 3 21 1) := by decide
theorem test_decode_ldsx : decode Config.initial 0b000000_01101_00101_10100_10_00001010_0 = .instr (.ldsx 13 5 20 2) := by decide
theorem test_decode_ldsux : decode Config.initial 0b000000_01110_00111_10011_11_00001011_0 = .instr (.ldsux 14 7 19 3) := by decide
theorem test_decode_lhbrsx : decode Config.initial 0b000000_01111_01001_10010_00_00001100_0 = .instr (.lhbrsx 15 9 18 0) := by decide
theorem test_decode_lwbrsx : decode Config.initial 0b000000_10000_01011_10001_01_00001101_0 = .instr (.lwbrsx 16 11 17 1) := by decide
theorem test_decode_ldbrsx : decode Config.initial 0b000000_10001_01101_10000_10_00001110_0 = .instr (.ldbrsx 17 13 16 2) := by decide

/-- An `ENC` unlike the provisional one: the fields in another order, `PO` = 31 and `XO` = 100 + row, SH of 3 bits. -/
def otherEnc : Config :=
  { Config.initial with
    shBits := 3
    enc := ⟨⟨⟨0, 6⟩, ⟨6, 5⟩, ⟨11, 5⟩, ⟨16, 5⟩, ⟨21, 3⟩, ⟨24, 7⟩⟩, 
      #v[⟨31, 100⟩, ⟨31, 101⟩, ⟨31, 102⟩, ⟨31, 103⟩, ⟨31, 104⟩, ⟨31, 105⟩, ⟨31, 106⟩, ⟨31, 107⟩, ⟨31, 108⟩, ⟨31, 109⟩,
         ⟨31, 110⟩, ⟨31, 111⟩, ⟨31, 112⟩, ⟨31, 113⟩, ⟨31, 114⟩]⟩ }

theorem test_other_enc_wf : otherEnc.wf := by decide
theorem test_decode_other_enc :
    decode otherEnc 0b0_1101111_111_00101_00100_00011_011111 = .instr (.ldsux 3 4 5 7) := by decide
theorem test_encode_other_enc :
    encode otherEnc (.ldsux 3 4 5 7) = 0b0_1101111_111_00101_00100_00011_011111 := by decide
/-- The operand part 00642A00 of 95_test_vectors.md section 2.7. -/
theorem test_encode_operand_part : encode Config.initial (.lbzsx 3 4 5 1) = 0x00642A00 := by decide
theorem test_decode_reserved_bit : decode Config.initial 0x00642A01 = .refused .reservedBit := by decide
theorem test_decode_unknown_opcode : decode Config.initial 0x7C642A00 = .refused .unknownInstruction := by decide
theorem test_decode_operand_range :
    decode { Config.initial with shBits := 1 } 0x00642C00 = .refused .operandRange := by decide
/-- V16. -/
theorem test_assemble_operand_range : assemble Config.initial ⟨"lbzsx", 3, 4, 5, 4⟩ = .refused .operandRange := by decide
/-- Rule R90. -/
theorem test_assemble_unknown : assemble Config.initial ⟨"lwbrsux", 3, 4, 5, 1⟩ = .refused .unknownInstruction := by decide
/-- Rule R67: the text `lwasux 3,14,5,2`. -/
theorem test_parse_line : parseLine "lwasux 3,14,5,2".toList = some ⟨"lwasux", 3, 14, 5, 2⟩ := by decide
theorem test_parse_refuses_register_name : parseLine "lwasux r3,14,5,2".toList = none := by decide

/-! Vectors. -/

/-- Image M1 of 95_test_vectors.md. -/
def m1 : List Byte :=
  [0x00, 0x11, 0x22, 0x33, 0x44, 0x55, 0x66, 0x77, 0x88, 0x99, 0xAA, 0xBB, 0xCC, 0xDD, 0xEE, 0xFF,
   0x80, 0x01, 0x7F, 0xFE, 0xF0, 0x0D, 0xBE, 0xEF, 0x01, 0x23, 0x45, 0x67, 0x89, 0xAB, 0xCD, 0xEF]

/-- Image M2 of 95_test_vectors.md. -/
def m2 : List Byte :=
  [0x7F, 0xFF, 0x80, 0x00, 0xFF, 0xFF, 0x00, 0x00, 0x7F, 0xFF, 0xFF, 0xFF, 0x80, 0x00, 0x00, 0x00,
   0xFF, 0xFF, 0xFF, 0xFF, 0x00, 0x00, 0x00, 0x00, 0x00, 0xFF, 0x00, 0x00, 0x00, 0x00, 0x00, 0x80]

/-- The state of a vector: the registers listed hold values and every other "no value"; pc = 4000 hex, `Admit` the three images. -/
def before (e : Endian) (mis : Misalign) (regs : List (RegNo × Word)) : State where
  regs := regs.foldl (fun v p => v.set p.1.val (.value p.2)) (Vector.replicate 32 .noValue)
  pc := 0x4000
  mem := (Memory.setBytes [] 0x1000 m1).setBytes 0x2000 m2
  base := 0x4000
  text := .binary []
  cfg := { Config.initial with
    endian := e, misalign := mis, memmap := [⟨0x1000, 0x20⟩, ⟨0x2000, 0x20⟩, ⟨0x3000, 0x10⟩] }

/-- After an instruction that completes: pc, and some registers. -/
def after (js : List RegNo) : Result State → Option (Word × List RegContent)
  | .next s => some (s.pc, js.map s.reg)
  | _ => none

/-- Why an instruction stopped. -/
def stop : Result State → Option (Fault ⊕ Refusal)
  | .next _ => none
  | .fault f => some (.inl f)
  | .refused r => some (.inr r)

/-- V4. -/
theorem test_lbzsx_base_zero :
    after [3, 0] (exec (.lbzsx 3 0 5 0) (before .be .perform [(0, 0x5555), (5, 0x808)])) = some (0x4004, [.value 0x80, .value 0x5555]) ∧
    after [3, 0] (exec (.lbzsx 3 0 5 0) (before .le .perform [(0, 0x5555), (5, 0x808)])) = some (0x4004, [.value 0x80, .value 0x5555]) := by decide
/-- V8. -/
theorem test_lbzsx_index_top_bit_lost :
    after [3, 5] (exec (.lbzsx 3 4 5 0) (before .be .perform [(4, 0x1000), (5, 0x8000000000000001)])) = some (0x4004, [.value 0x22, .value 0x8000000000000001]) ∧
    after [3, 5] (exec (.lbzsx 3 4 5 0) (before .le .perform [(4, 0x1000), (5, 0x8000000000000001)])) = some (0x4004, [.value 0x22, .value 0x8000000000000001]) := by decide
/-- V10. -/
theorem test_lbzsux_base_is_index :
    after [3, 4] (exec (.lbzsux 3 4 4 0) (before .be .perform [(4, 0x558)])) = some (0x4004, [.value 0x88, .value 0x1008]) ∧
    after [3, 4] (exec (.lbzsux 3 4 4 0) (before .le .perform [(4, 0x558)])) = some (0x4004, [.value 0x88, .value 0x1008]) := by decide
/-- V12. -/
theorem test_lbzsux_target_is_base :
    stop (exec (.lbzsux 4 4 5 1) (before .be .perform [(4, 0x1000), (5, 0x2)])) = some (.inl (.invalidForm .lbzsux 4 4)) := by decide
/-- V21. -/
theorem test_lhzsx_zero_extends :
    after [3] (exec (.lhzsx 3 4 5 0) (before .be .perform [(4, 0x1000), (5, 0x4)])) = some (0x4004, [.value 0x8899]) ∧
    after [3] (exec (.lhzsx 3 4 5 0) (before .le .perform [(4, 0x1000), (5, 0x4)])) = some (0x4004, [.value 0x9988]) := by decide
/-- V31. -/
theorem test_lhzsx_misaligned_fault :
    stop (exec (.lhzsx 3 4 5 0) (before .be .fault [(4, 0x1001), (5, 0x1)])) = some (.inl (.alignmentFault 0x1003)) := by decide
/-- V28. -/
theorem test_lhzsux_updates :
    after [3, 4, 5] (exec (.lhzsux 3 4 5 0) (before .be .perform [(4, 0x1000), (5, 0x5)])) = some (0x4004, [.value 0xAABB, .value 0x100A, .value 0x5]) ∧
    after [3, 4, 5] (exec (.lhzsux 3 4 5 0) (before .le .perform [(4, 0x1000), (5, 0x5)])) = some (0x4004, [.value 0xBBAA, .value 0x100A, .value 0x5]) := by decide
/-- V34. -/
theorem test_lhzsux_target_is_base :
    stop (exec (.lhzsux 3 3 5 0) (before .be .perform [(3, 0x1000), (5, 0x1)])) = some (.inl (.invalidForm .lhzsux 3 3)) := by decide
/-- V24. -/
theorem test_lhasx_sign_by_byte_order :
    after [3] (exec (.lhasx 3 4 5 0) (before .be .perform [(4, 0x2000), (5, 0x0)])) = some (0x4004, [.value 0x7FFF]) ∧
    after [3] (exec (.lhasx 3 4 5 0) (before .le .perform [(4, 0x2000), (5, 0x0)])) = some (0x4004, [.value 0xFFFFFFFFFFFFFF7F]) := by decide
/-- V25. -/
theorem test_lhasx_most_negative :
    after [3] (exec (.lhasx 3 4 5 0) (before .be .perform [(4, 0x2000), (5, 0x1)])) = some (0x4004, [.value 0xFFFFFFFFFFFF8000]) ∧
    after [3] (exec (.lhasx 3 4 5 0) (before .le .perform [(4, 0x2000), (5, 0x1)])) = some (0x4004, [.value 0x80]) := by decide
/-- V29. -/
theorem test_lhasux_updates :
    after [3, 4] (exec (.lhasux 3 4 5 3) (before .be .perform [(4, 0x1000), (5, 0x1)])) = some (0x4004, [.value 0xFFFFFFFFFFFF8001, .value 0x1010]) ∧
    after [3, 4] (exec (.lhasux 3 4 5 3) (before .le .perform [(4, 0x1000), (5, 0x1)])) = some (0x4004, [.value 0x180, .value 0x1010]) := by decide
/-- V33. -/
theorem test_lhasux_target_is_base :
    stop (exec (.lhasux 3 3 5 0) (before .be .perform [(3, 0x1000), (5, 0x1)])) = some (.inl (.invalidForm .lhasux 3 3)) := by decide
/-- V40. -/
theorem test_lwzsx_zero_extends :
    after [3] (exec (.lwzsx 3 4 5 1) (before .be .perform [(4, 0x1000), (5, 0x2)])) = some (0x4004, [.value 0x8899AABB]) ∧
    after [3] (exec (.lwzsx 3 4 5 1) (before .le .perform [(4, 0x1000), (5, 0x2)])) = some (0x4004, [.value 0xBBAA9988]) := by decide
/-- V55. -/
theorem test_lwzsx_wrap_before_alignment :
    stop (exec (.lwzsx 3 0 5 0) (before .be .refuse [(5, 0x7FFFFFFFFFFFFFFF)])) = some (.inr .addressWrap) := by decide
/-- V48. -/
theorem test_lwzsux_updates :
    after [3, 4] (exec (.lwzsux 3 4 5 1) (before .be .perform [(4, 0x1000), (5, 0x5)])) = some (0x4004, [.value 0xF00DBEEF, .value 0x1014]) ∧
    after [3, 4] (exec (.lwzsux 3 4 5 1) (before .le .perform [(4, 0x1000), (5, 0x5)])) = some (0x4004, [.value 0xEFBE0DF0, .value 0x1014]) := by decide
/-- V51. -/
theorem test_lwzsux_base_zero :
    stop (exec (.lwzsux 3 0 5 1) (before .be .perform [(0, 0x1000), (5, 0x1)])) = some (.inl (.invalidForm .lwzsux 3 0)) := by decide
/-- V44. -/
theorem test_lwasx_sign_by_byte_order :
    after [3] (exec (.lwasx 3 4 5 1) (before .be .perform [(4, 0x2000), (5, 0x2)])) = some (0x4004, [.value 0x7FFFFFFF]) ∧
    after [3] (exec (.lwasx 3 4 5 1) (before .le .perform [(4, 0x2000), (5, 0x2)])) = some (0x4004, [.value 0xFFFFFFFFFFFFFF7F]) := by decide
/-- V45. -/
theorem test_lwasx_most_negative :
    after [3] (exec (.lwasx 3 4 5 1) (before .be .perform [(4, 0x2000), (5, 0x3)])) = some (0x4004, [.value 0xFFFFFFFF80000000]) ∧
    after [3] (exec (.lwasx 3 4 5 1) (before .le .perform [(4, 0x2000), (5, 0x3)])) = some (0x4004, [.value 0x80]) := by decide
/-- V49. -/
theorem test_lwasux_updates :
    after [3, 4] (exec (.lwasux 3 4 5 1) (before .be .perform [(4, 0x1000), (5, 0x3)])) = some (0x4004, [.value 0xFFFFFFFFCCDDEEFF, .value 0x100C]) ∧
    after [3, 4] (exec (.lwasux 3 4 5 1) (before .le .perform [(4, 0x1000), (5, 0x3)])) = some (0x4004, [.value 0xFFFFFFFFFFEEDDCC, .value 0x100C]) := by decide
/-- V52. -/
theorem test_lwasux_target_is_base :
    stop (exec (.lwasux 7 7 5 1) (before .be .perform [(7, 0x1000), (5, 0x1)])) = some (.inl (.invalidForm .lwasux 7 7)) := by decide
/-- V65. -/
theorem test_ldsx_misaligned_performed :
    after [3] (exec (.ldsx 3 4 5 0) (before .be .perform [(4, 0x1000), (5, 0x2)])) = some (0x4004, [.value 0x445566778899AABB]) ∧
    after [3] (exec (.ldsx 3 4 5 0) (before .le .perform [(4, 0x1000), (5, 0x2)])) = some (0x4004, [.value 0xBBAA998877665544]) := by decide
/-- V70. -/
theorem test_ldsx_first_cell_past_image :
    stop (exec (.ldsx 3 4 5 2) (before .be .perform [(4, 0x1000), (5, 0x4)])) = some (.inl (.storageFault 0x1020)) := by decide
/-- V63. -/
theorem test_ldsux_updates :
    after [3, 4] (exec (.ldsux 3 4 5 2) (before .be .perform [(4, 0x1000), (5, 0x2)])) = some (0x4004, [.value 0x80017FFEF00DBEEF, .value 0x1010]) ∧
    after [3, 4] (exec (.ldsux 3 4 5 2) (before .le .perform [(4, 0x1000), (5, 0x2)])) = some (0x4004, [.value 0xEFBE0DF0FE7F0180, .value 0x1010]) := by decide
/-- V66. -/
theorem test_ldsux_base_zero :
    stop (exec (.ldsux 3 0 5 2) (before .be .perform [(0, 0x1000), (5, 0x1)])) = some (.inl (.invalidForm .ldsux 3 0)) := by decide
/-- V82. -/
theorem test_lhbrsx_zero_extends :
    after [3] (exec (.lhbrsx 3 0 5 0) (before .be .perform [(5, 0x808)])) = some (0x4004, [.value 0x180]) ∧
    after [3] (exec (.lhbrsx 3 0 5 0) (before .le .perform [(5, 0x808)])) = some (0x4004, [.value 0x8001]) := by decide
/-- V90. -/
theorem test_lhbrsx_target_is_base :
    after [3] (exec (.lhbrsx 3 3 5 0) (before .be .perform [(3, 0x1000), (5, 0x1)])) = some (0x4004, [.value 0x3322]) ∧
    after [3] (exec (.lhbrsx 3 3 5 0) (before .le .perform [(3, 0x1000), (5, 0x1)])) = some (0x4004, [.value 0x2233]) := by decide
/-- V85. -/
theorem test_lwbrsx_reverses :
    after [3] (exec (.lwbrsx 3 4 5 1) (before .be .perform [(4, 0x1000), (5, 0x2)])) = some (0x4004, [.value 0xBBAA9988]) ∧
    after [3] (exec (.lwbrsx 3 4 5 1) (before .le .perform [(4, 0x1000), (5, 0x2)])) = some (0x4004, [.value 0x8899AABB]) := by decide
/-- V86. -/
theorem test_lwbrsx_zero_extends :
    after [3] (exec (.lwbrsx 3 4 5 1) (before .be .perform [(4, 0x2000), (5, 0x7)])) = some (0x4004, [.value 0x80000000]) ∧
    after [3] (exec (.lwbrsx 3 4 5 1) (before .le .perform [(4, 0x2000), (5, 0x7)])) = some (0x4004, [.value 0x80]) := by decide
/-- V87. -/
theorem test_ldbrsx_reverses :
    after [3] (exec (.ldbrsx 3 4 5 2) (before .be .perform [(4, 0x1000), (5, 0x1)])) = some (0x4004, [.value 0xFFEEDDCCBBAA9988]) ∧
    after [3] (exec (.ldbrsx 3 4 5 2) (before .le .perform [(4, 0x1000), (5, 0x1)])) = some (0x4004, [.value 0x8899AABBCCDDEEFF]) := by decide
/-- V89. -/
theorem test_ldbrsx_reverses_m2 :
    after [3] (exec (.ldbrsx 3 4 5 2) (before .be .perform [(4, 0x2000), (5, 0x3)])) = some (0x4004, [.value 0x800000000000FF00]) ∧
    after [3] (exec (.ldbrsx 3 4 5 2) (before .le .perform [(4, 0x2000), (5, 0x3)])) = some (0x4004, [.value 0xFF000000000080]) := by decide

/-! Steps. -/

theorem test_step_from_reset_ends : stop (step State.reset) = some (.inr .programEnd) := by decide
theorem test_step_of_placed_word :
    after [0] (step (State.reset.withFetchWord 32 0)) = some (4, [.value 0]) := by decide
/-- V16, as a step. -/
theorem test_step_operand_range :
    stop (step { State.reset with text := .asm [⟨"lbzsx", 3, 4, 5, 4⟩] }) = some (.inr .operandRange) := by decide
/-- Rule R99, entry 1 before entry 2: an operand out of range on an invalid form. -/
theorem test_step_decodes_before_invalid_form :
    stop (step { State.reset with text := .asm [⟨"ldsux", 3, 0, 5, 4⟩] }) = some (.inr .operandRange) := by decide

/-! Witnesses: for each statement with hypotheses, a state and operands that meet them together. -/

/-- Registers 4 and 5 hold the base and the index. -/
def two (mis : Misalign) (b x : Word) : State := before .be mis [(4, b), (5, x)]

/-- Every clause of `WideLoad` and `WideUpdate` with RT = 3, RA = 4, RB = 5, SH = 0 and access size `n`: a state that meets it. -/
def WideClausesMet (n : Nat) : Prop :=
  (∃ s : State, s.reg 4 = .noValue) ∧
  (∃ (s : State) (b : Word), BaseIs s 4 b ∧ s.reg 4 = .value b ∧ s.reg 5 = .noValue) ∧
  (∃ (s : State) (b x : Word), BaseIs s 4 b ∧ s.reg 5 = .value x ∧ 2 ^ 64 < (addressOf b x 0).toNat + n) ∧
  (∃ (s : State) (b x : Word), BaseIs s 4 b ∧ s.reg 5 = .value x ∧ (addressOf b x 0).toNat + n ≤ 2 ^ 64 ∧
    (addressOf b x 0).toNat % n ≠ 0 ∧ s.cfg.misalign = .fault) ∧
  (∃ (s : State) (b x : Word), BaseIs s 4 b ∧ s.reg 5 = .value x ∧ (addressOf b x 0).toNat + n ≤ 2 ^ 64 ∧
    (addressOf b x 0).toNat % n ≠ 0 ∧ s.cfg.misalign = .refuse) ∧
  (∃ (s : State) (b x : Word), BaseIs s 4 b ∧ s.reg 5 = .value x ∧ AccessAllowed s (addressOf b x 0) n ∧
    ¬ AccessAdmitted s (addressOf b x 0) n) ∧
  (∃ (s : State) (b x : Word), BaseIs s 4 b ∧ s.reg 5 = .value x ∧ AccessAllowed s (addressOf b x 0) n ∧
    AccessAdmitted s (addressOf b x 0) n)

/-- The wrap and admission clauses at the edges: the lowest address that wraps, the highest access that does not, the last of image M1. -/
theorem witness_wide_clauses_2 : WideClausesMet 2 := by
  unfold WideClausesMet BaseIs AccessAllowed AccessAdmitted CellAdmitted
  exact ⟨⟨before .be .refuse [], by decide⟩, ⟨before .be .refuse [(4, 0x1000)], 0x1000, by decide⟩,
    ⟨two .refuse 0xffffffffffffffff 0, 0xffffffffffffffff, 0, by decide⟩, ⟨two .fault 0xfffffffffffffffd 0, 0xfffffffffffffffd, 0, by decide⟩,
    ⟨two .refuse 0x1001 0, 0x1001, 0, by decide⟩, ⟨two .refuse 0xfffffffffffffffe 0, 0xfffffffffffffffe, 0, by decide⟩,
    ⟨two .refuse 0x101e 0, 0x101e, 0, by decide⟩⟩

/-- The wrap and admission clauses at the edges: the lowest address that wraps, the highest access that does not, the last of image M1. -/
theorem witness_wide_clauses_4 : WideClausesMet 4 := by
  unfold WideClausesMet BaseIs AccessAllowed AccessAdmitted CellAdmitted
  exact ⟨⟨before .be .refuse [], by decide⟩, ⟨before .be .refuse [(4, 0x1000)], 0x1000, by decide⟩,
    ⟨two .refuse 0xfffffffffffffffd 0, 0xfffffffffffffffd, 0, by decide⟩, ⟨two .fault 0xfffffffffffffffb 0, 0xfffffffffffffffb, 0, by decide⟩,
    ⟨two .refuse 0x1001 0, 0x1001, 0, by decide⟩, ⟨two .refuse 0xfffffffffffffffc 0, 0xfffffffffffffffc, 0, by decide⟩,
    ⟨two .refuse 0x101c 0, 0x101c, 0, by decide⟩⟩

/-- The wrap and admission clauses at the edges: the lowest address that wraps, the highest access that does not, the last of image M1. -/
theorem witness_wide_clauses_8 : WideClausesMet 8 := by
  unfold WideClausesMet BaseIs AccessAllowed AccessAdmitted CellAdmitted
  exact ⟨⟨before .be .refuse [], by decide⟩, ⟨before .be .refuse [(4, 0x1000)], 0x1000, by decide⟩,
    ⟨two .refuse 0xfffffffffffffff9 0, 0xfffffffffffffff9, 0, by decide⟩, ⟨two .fault 0xfffffffffffffff7 0, 0xfffffffffffffff7, 0, by decide⟩,
    ⟨two .refuse 0x1001 0, 0x1001, 0, by decide⟩, ⟨two .refuse 0xfffffffffffffff8 0, 0xfffffffffffffff8, 0, by decide⟩,
    ⟨two .refuse 0x1018 0, 0x1018, 0, by decide⟩⟩

/-- The clauses of `ByteLoad` and `ByteUpdate`, at the last admitted cell of image M1 and the first past it. -/
theorem witness_byte_clauses :
    (∃ s : State, s.reg 4 = .noValue) ∧
    (∃ (s : State) (b : Word), BaseIs s 4 b ∧ s.reg 4 = .value b ∧ s.reg 5 = .noValue) ∧
    (∃ (s : State) (b x : Word), BaseIs s 4 b ∧ s.reg 5 = .value x ∧ ¬ CellAdmitted s (addressOf b x 0).toNat) ∧
    (∃ (s : State) (b x : Word), BaseIs s 4 b ∧ s.reg 5 = .value x ∧ CellAdmitted s (addressOf b x 0).toNat) := by
  unfold BaseIs CellAdmitted
  exact ⟨⟨before .be .refuse [], by decide⟩, ⟨before .be .refuse [(4, 0x1000)], 0x1000, by decide⟩,
    ⟨two .refuse 0x1020 0, 0x1020, 0, by decide⟩, ⟨two .refuse 0x101F 0, 0x101F, 0, by decide⟩⟩

/-- The form clauses of the update statements: RA = 0, RA = RT, and neither. -/
theorem witness_update_forms :
    ((0 : RegNo) = 0 ∨ (0 : RegNo) = 3) ∧ ((3 : RegNo) = 0 ∨ (3 : RegNo) = 3) ∧ (4 : RegNo) ≠ 0 ∧ (4 : RegNo) ≠ 3 := by
  decide

/-- RA = 0 with register 0 holding "no value", and RA = 31: the two clauses of `RAOrZeroIsZeroForRegisterZero` and of `BaseIs`. -/
theorem witness_base : BaseIs (before .be .refuse []) 0 0 ∧ BaseIs (before .be .refuse [(31, 7)]) 31 7 := by
  unfold BaseIs; decide

theorem witness_addresses :
    BaseIs (two .refuse 0x1000 2) 4 0x1000 ∧ (two .refuse 0x1000 2).reg 4 = .value 0x1000 ∧
      (two .refuse 0x1000 2).reg 5 = .value 2 := by
  unfold BaseIs; decide

/-- `MemReadPutsEachCellInItsLane` at the last lane. -/
theorem witness_lane : 7 < 8 := by decide

theorem witness_canonical_memories :
    Memory.wf [(1, 2)] ∧ Memory.wf (Memory.setByte [] 1 2) ∧ ∀ a, Memory.byte [(1, 2)] a = (Memory.setByte [] 1 2).byte a :=
  ⟨by decide, by decide, fun _ => rfl⟩

/-- A byte load, for the second clauses of the wrap and alignment statements. -/
theorem witness_byte_access : (Instr.lbzsx 3 4 5 0).mnemonic.accessBytes = 1 := rfl

/-- An update form that completes: the premise of the frame. -/
theorem witness_completes : (after [3, 4] (exec (.ldsux 3 4 5 2) (two .refuse 0x1000 2))).isSome = true := by decide

/-- Two loads of one mnemonic, with other operands, at other addresses whose cells are equal (2006 and 2014 hex, both 00 00). -/
theorem witness_equal_cells :
    (Instr.lhzsx 3 4 5 0).mnemonic = (Instr.lhzsx 6 5 4 1).mnemonic ∧
    EffectiveAddress (.lhzsx 3 4 5 0) (two .refuse 0x2000 3) 0x2006 ∧
    EffectiveAddress (.lhzsx 6 5 4 1) (two .refuse 5 0x2000) 0x2014 ∧
    (∀ j, j < 2 → (two .refuse 0x2000 3).mem.byte (0x2006 + j) = (two .refuse 5 0x2000).mem.byte (0x2014 + j)) ∧
    (after [3] (exec (.lhzsx 3 4 5 0) (two .refuse 0x2000 3))).isSome = true ∧
    (after [6] (exec (.lhzsx 6 5 4 1) (two .refuse 5 0x2000))).isSome = true := by
  refine ⟨rfl, ⟨0x2000, 3, ?_⟩, ⟨0x2000, 5, ?_⟩, ?_, ?_, ?_⟩
  · unfold ReadsRA; decide
  · unfold ReadsRA; decide
  · decide
  · decide
  · decide

theorem witness_register_zero :
    (Instr.lbzsx 0 0 5 0).mnemonic.isUpdate = false ∧ (Instr.lbzsx 0 0 5 0).ra = 0 ∧ (Instr.lbzsx 0 0 5 0).rb ≠ 0 := by decide

/-- For the encoding statements: an admitted configuration, and instructions with every operand at its largest. -/
theorem witness_encoding :
    Config.initial.wf ∧ Config.initial.enc.layout = Layout.provisional ∧ (Instr.ldbrsx 31 31 31 3).wf Config.initial ∧
    otherEnc.wf ∧ (Instr.ldbrsx 31 31 31 7).wf otherEnc ∧
    decode otherEnc (encode otherEnc (.ldbrsx 31 31 31 7)) = .instr (.ldbrsx 31 31 31 7) := by decide

/-- Both clauses of the reserved-bit statement: a word of a known opcode, and one of no mnemonic's. -/
theorem witness_reserved_bit :
    (1 : InstrWord).getLsbD 0 = true ∧
    Config.initial.enc.opcode .lbzsx = ⟨(1 : InstrWord).toNat / 2 ^ 26, (1 : InstrWord).toNat / 2 % 2 ^ 8⟩ ∧
    (0x7C000001 : InstrWord).getLsbD 0 = true ∧
    ∀ m ∈ Mnemonic.all, Config.initial.enc.opcode m ≠
      ⟨(0x7C000001 : InstrWord).toNat / 2 ^ 26, (0x7C000001 : InstrWord).toNat / 2 % 2 ^ 8⟩ := by decide

/-- The clauses of the assembly statement: an unknown name; a known one with RT = 32, with SH = 4, and with all operands in range. -/
theorem witness_assembly :
    (∀ m ∈ Mnemonic.all, m.name ≠ "lhbrsux") ∧ Mnemonic.lhbrsx.name = "lhbrsx" ∧
    ¬ (32 < 32 ∧ 0 < 32 ∧ 0 < 32 ∧ 0 < 2 ^ Config.initial.shBits) ∧
    ¬ (31 < 32 ∧ 0 < 32 ∧ 0 < 32 ∧ 4 < 2 ^ Config.initial.shBits) ∧ 3 < 2 ^ Config.initial.shBits ∧
    ' ' ∉ "lhbrsx".toList := by decide

/-- A text of two words, the second of them at pc. -/
def secondWord : State := { State.reset with text := .binary [0, 0x00642A00], pc := 4 }

theorem witness_step_of_word :
    secondWord.text = .binary [0, 0x00642A00] ∧ [(0 : InstrWord), 0x00642A00][1]? = some 0x00642A00 ∧
    secondWord.pc = secondWord.base + BitVec.ofNat 64 (4 * 1) ∧
    decode secondWord.cfg 0x00642A00 = .instr (.lbzsx 3 4 5 1) ∧ decode secondWord.cfg 0x00642A01 = .refused .reservedBit ∧
    decode secondWord.cfg 0xFFFFFFFF = .refused .unknownInstruction ∧
    decode { Config.initial with shBits := 1 } 0x00642C00 = .refused .operandRange := by decide

theorem witness_step_of_line :
    [(⟨"ldsx", 3, 4, 5, 2⟩ : AsmLine)][0]? = some ⟨"ldsx", 3, 4, 5, 2⟩ ∧
    assemble Config.initial ⟨"ldsx", 3, 4, 5, 2⟩ = .instr (.ldsx 3 4 5 2) ∧
    assemble Config.initial ⟨"ldx", 3, 4, 5, 2⟩ = .refused .unknownInstruction ∧
    assemble Config.initial ⟨"ldsx", 3, 4, 5, 4⟩ = .refused .operandRange := by decide

theorem witness_placed : secondWord.Placed := ⟨by decide, by decide, by decide⟩

/-- pc past the end of a placed text is outside it. -/
theorem witness_outside_text : ({ secondWord with pc := 12 } : State).Placed ∧ ¬ ({ secondWord with pc := 12 } : State).InText := by
  refine ⟨⟨by decide, by decide, by decide⟩, fun h => ?_⟩
  obtain ⟨k, hk, e⟩ := h
  have hk : k ≤ 2 := hk
  interval_cases k <;> exact absurd e (by decide)

/-- A state inside its text that meets the invariant and takes a step. -/
theorem witness_invariant : ({ secondWord with pc := 0 } : State).Inv ∧ (after [] (step { secondWord with pc := 0 })).isSome = true :=
  ⟨⟨by decide, by decide, ⟨by decide, by decide, by decide⟩, 0, by decide, by decide⟩, by decide⟩

theorem witness_launch : ({ secondWord with pc := 0 } : State).Launch :=
  ⟨by decide, by decide, ⟨by decide, by decide, by decide⟩, by decide⟩

theorem witness_valued : State.reset.Valued ∧ Reaches State.reset 0 State.reset :=
  ⟨by unfold State.Valued; decide, rfl⟩

/-- Two steps from a launch state reach its end. -/
theorem witness_reaches : (after [] (run 2 { secondWord with pc := 0 })) = some (8, []) := by decide

end Sys2Proof.Tests
end

section
/-! PROOFS. The statements of the family 00_scope: register 0 as a base (rules R12, R19). -/

namespace Sys2Proof.Proofs
open Sys2Proof.Machine Sys2Proof.Claims

/-! `(RA|0)`. -/

/-- Settles O16: both clauses are the two ways in which `gprz` answers. -/
theorem raOrZeroIsZeroForRegisterZero : Obligations.RAOrZeroIsZeroForRegisterZero := by
  intro s ra
  exact ⟨fun h => (gprz_eq_next s ra).2 (.inl ⟨h, rfl⟩), fun h w hw => (gprz_eq_next s ra).2 (.inr ⟨h, hw⟩)⟩

/-! Mapping the state of completion through a sequence. -/

@[simp] theorem mapNext_next (f : State → State) (s : State) : mapNext f (.next s) = .next (f s) := rfl

theorem mapNext_andThen {α : Type} (f : State → State) (r : Result α) (k : α → Result State) :
    mapNext f (Result.andThen r k) = Result.andThen r fun a => mapNext f (k a) := by
  cases r <;> rfl

/-! Other contents in register 0: what a write, a read and an access see of them. -/

section WithReg0
variable (c : RegContent) (s : State)

theorem reg_withReg0_of_ne {i : RegNo} (h : i ≠ 0) : (withReg0 c s).reg i = s.reg i := by
  have : 0 ≠ i.val := fun e => h (Fin.ext e.symm)
  simp [State.reg, withReg0, Vector.getElem_set_ne _ _ this]

theorem readReg_withReg0_of_ne {i : RegNo} (h : i ≠ 0) : readReg (withReg0 c s) i = readReg s i := by
  simp only [readReg, reg_withReg0_of_ne c s h]

/-- A write to register 0 covers the other contents; a write to any other register leaves them there. -/
theorem setReg_withReg0 (i : RegNo) (w : Word) :
    (withReg0 c s).setReg i w = if i = 0 then s.setReg i w else withReg0 c (s.setReg i w) := by
  split_ifs with h
  · subst h; simp [State.setReg, withReg0]
  · have : 0 ≠ i.val := fun e => h (Fin.ext e.symm)
    simp [State.setReg, withReg0, Vector.set_comm _ _ this]

/-- An access reads memory and the configuration, and no register. -/
theorem loadElement_withReg0 (ea : Word) (n : Nat) : loadElement (withReg0 c s) ea n = loadElement s ea n := rfl

/-- With RA = 0 the base is the number 0, so only an index in register 0 would let the address see the other contents. -/
theorem indexedEA_zero_withReg0 {rb : RegNo} (h : rb ≠ 0) (sh : Nat) :
    indexedEA (withReg0 c s) 0 rb sh = indexedEA s 0 rb sh := by
  simp only [indexedEA, gprz_zero, readReg_withReg0_of_ne c s h]

theorem advance_setReg_withReg0 (i : RegNo) (w : Word) :
    ((withReg0 c s).setReg i w).advance =
      if i = 0 then (s.setReg i w).advance else withReg0 c (s.setReg i w).advance := by
  rw [setReg_withReg0]
  split_ifs <;> rfl

/-- The non-update load with RA = 0: same address, same access, and the write of RT on top of the other contents. -/
theorem loadIndexed_zero_withReg0 {n : Nat} (ext : BitVec (8 * n) → Word) (rt : RegNo) {rb : RegNo} (h : rb ≠ 0) (sh : Nat) :
    loadIndexed n ext rt 0 rb sh (withReg0 c s) =
      mapNext (fun t => if rt = 0 then t else withReg0 c t) (loadIndexed n ext rt 0 rb sh s) := by
  simp only [loadIndexed, indexedEA_zero_withReg0 c s h, loadElement_withReg0, advance_setReg_withReg0, mapNext_andThen,
    mapNext_next]

end WithReg0

/-- Settles O34: every non-update instruction is the one load shape `loadIndexed`. -/
theorem registerZeroIsNotReadAsBase : Obligations.RegisterZeroIsNotReadAsBase := by
  intro i s c hu hra hrb
  rw [exec_eq_loadIndexed i hu, exec_eq_loadIndexed i hu, hra]
  exact loadIndexed_zero_withReg0 c s _ i.rt hrb i.sh

end Sys2Proof.Proofs
end

section
/-! PROOFS. The statements of the family 10_state: what a completed instruction changes and what it keeps (rules R20, R22, R28, R32),
the invariant of the machine, the canonical form of memory, and the state at reset. -/

namespace Sys2Proof.Proofs
open Sys2Proof.Machine Sys2Proof.Claims

/-! What a completed instruction keeps. -/

/-- `t` has the memory, program text and configuration of `s`: all that a launch state gives beside the registers and pc. -/
structure SameLaunchData (s t : State) : Prop where
  mem : t.mem = s.mem
  base : t.base = s.base
  text : t.text = s.text
  cfg : t.cfg = s.cfg

theorem SameLaunchData.trans {s t u : State} (h : SameLaunchData s t) (h' : SameLaunchData t u) : SameLaunchData s u :=
  ⟨h'.mem.trans h.mem, h'.base.trans h.base, h'.text.trans h.text, h'.cfg.trans h.cfg⟩

section Completed
variable {i : Instr} {s t : State}

theorem exec_sameLaunchData (h : exec i s = .next t) : SameLaunchData s t := by
  obtain ⟨w, ea, ⟨-, rfl⟩ | ⟨-, -, -, rfl⟩⟩ := exec_eq_next h <;> exact ⟨rfl, rfl, rfl, rfl⟩

theorem exec_pc (h : exec i s = .next t) : t.pc = s.pc + 4 := by
  obtain ⟨w, ea, ⟨-, rfl⟩ | ⟨-, -, -, rfl⟩⟩ := exec_eq_next h <;> rfl

/-! What a completed instruction writes. -/

/-- In an update form RA differs from RT, so the later write of RA leaves RT's value in place. -/
theorem exec_reg_target (h : exec i s = .next t) : ∃ w, t.reg i.rt = .value w := by
  obtain ⟨w, ea, ⟨-, rfl⟩ | ⟨-, -, hne, rfl⟩⟩ := exec_eq_next h
  · exact ⟨w, by simp⟩
  · exact ⟨w, by simp [State.reg_setReg_of_ne _ _ _ hne.symm]⟩

theorem exec_reg_of_ne (h : exec i s = .next t) {j : RegNo} (hrt : j ≠ i.rt) (hra : i.mnemonic.isUpdate = true → j ≠ i.ra) :
    t.reg j = s.reg j := by
  obtain ⟨w, ea, ⟨-, rfl⟩ | ⟨hu, -, -, rfl⟩⟩ := exec_eq_next h
  · simp [State.reg_setReg_of_ne _ _ _ hrt]
  · simp [State.reg_setReg_of_ne _ _ _ (hra hu), State.reg_setReg_of_ne _ _ _ hrt]

/-- The model's sum of base and shifted index is the address of rules R69 and R70. -/
theorem add_shiftedIndex (b x : Word) (sh : Nat) : b + shiftedIndex x sh = addressOf b x sh := by
  apply BitVec.eq_of_toNat_eq
  simp [addressOf, BitVec.toNat_add, shiftedIndex_toNat]

theorem exec_reg_updatedBase (hu : i.mnemonic.isUpdate = true) (h : exec i s = .next t) :
    ∃ ea, EffectiveAddress i s ea ∧ t.reg i.ra = .value ea := by
  rw [exec_eq_loadUpdate i hu] at h
  obtain ⟨-, -, ea, v, hea, -, rfl⟩ := loadUpdate_eq_next.1 h
  obtain ⟨b, x, hb, hx, rfl⟩ := updateEA_eq_next.1 hea
  exact ⟨_, ⟨b, x, .inl ⟨.inl hu, hb⟩, hx, add_shiftedIndex b x i.sh⟩, by simp⟩

/-- Every register that an instruction writes gets a value, and every other one keeps its contents. -/
theorem exec_reg_ne_noValue (h : exec i s = .next t) {j : RegNo} (hj : s.reg j ≠ .noValue) : t.reg j ≠ .noValue := by
  by_cases hrt : j = i.rt
  · obtain ⟨w, hw⟩ := exec_reg_target h
    simp [hrt, hw]
  · by_cases hra : i.mnemonic.isUpdate = true ∧ j = i.ra
    · obtain ⟨ea, -, hw⟩ := exec_reg_updatedBase hra.1 h
      simp [hra.2, hw]
    · rwa [exec_reg_of_ne h hrt fun hu e => hra ⟨hu, e⟩]

end Completed

/-- Settles O32: the frame of the two load shapes, through `exec_eq_next`. -/
theorem loadWritesOnlyItsTargetAndUpdatedBase : Obligations.LoadWritesOnlyItsTargetAndUpdatedBase := by
  intro i s t h
  have kept := exec_sameLaunchData h
  exact ⟨exec_reg_target h, fun hu => exec_reg_updatedBase hu h, fun j hrt hra => exec_reg_of_ne h hrt hra, exec_pc h,
    fun a => by rw [kept.mem], kept.base, kept.text, kept.cfg⟩

/-! What a step and a run keep. -/

section Step
variable {s t : State}

theorem step_sameLaunchData (h : step s = .next t) : SameLaunchData s t := by
  obtain ⟨i, -, hi⟩ := step_eq_next.1 h
  exact exec_sameLaunchData hi

theorem reaches_sameLaunchData {k : Nat} (h : Reaches s k t) : SameLaunchData s t :=
  h.induct (fun _ _ hstep hs => hs.trans (step_sameLaunchData hstep)) ⟨rfl, rfl, rfl, rfl⟩

end Step

/-- Settles O53: the launch data is kept by every step, so by every run. -/
theorem runKeepsMemoryTextAndConfiguration : Obligations.RunKeepsMemoryTextAndConfiguration := by
  intro s t k h
  have kept := reaches_sameLaunchData h
  exact ⟨fun a => by rw [kept.mem], kept.base, kept.text, kept.cfg⟩

/-! The invariant of the machine. -/

section Invariant
variable {s t : State}

theorem placed_of_sameLaunchData (h : SameLaunchData s t) (hs : s.Placed) : t.Placed where
  aligned := by rw [h.base]; exact hs.aligned
  short := by rw [h.text]; exact hs.short
  fits := by rw [h.base, h.text]; exact hs.fits

/-- The instruction that a fetch reads is one of the L in the text. -/
theorem fetch_index_lt {i : Instr} (h : fetch s = .next i) : s.offset / 4 < s.text.length := by
  obtain ⟨-, -, hread⟩ := fetch_eq_next.1 h
  by_contra hge
  simp [Text.read?_eq_none.2 (not_lt.1 hge)] at hread

/-- From instruction k, below L, a step goes on to `base + 4(k + 1)`, an instruction of the text or its end. -/
theorem step_inText (h : step s = .next t) : t.InText := by
  obtain ⟨i, hf, hi⟩ := step_eq_next.1 h
  have kept := exec_sameLaunchData hi
  have hlt := fetch_index_lt hf
  obtain ⟨haligned, -, -⟩ := fetch_eq_next.1 hf
  refine ⟨s.offset / 4 + 1, by rw [kept.text]; omega, ?_⟩
  calc t.pc = s.base + BitVec.ofNat 64 s.offset + 4 := by rw [exec_pc hi, ← s.pc_eq_base_add_offset]
    _ = s.base + BitVec.ofNat 64 (s.offset + 4) := by rw [BitVec.ofNat_add, ← BitVec.add_assoc]; rfl
    _ = t.base + BitVec.ofNat 64 (4 * (s.offset / 4 + 1)) := by rw [kept.base]; congr 2; omega

end Invariant

/-- Settles O50: the launch data is kept, and pc stays in the text because the fetch reads below its end. -/
theorem stepKeepsTheInvariant : Obligations.StepKeepsTheInvariant := by
  intro s t hs h
  have kept := step_sameLaunchData h
  exact
    { memory := by rw [kept.mem]; exact hs.memory
      config := by rw [kept.cfg]; exact hs.config
      placed := placed_of_sameLaunchData kept hs.placed
      inText := step_inText h }

/-- Settles O51: pc is a multiple of 4 above a base that is one, and 2^64 is one too. -/
theorem invariantPcIsWordAligned : Obligations.InvariantPcIsWordAligned := by
  intro s hs
  obtain ⟨k, -, hpc⟩ := hs.inText
  have hbase := hs.placed.aligned
  rw [hpc, BitVec.toNat_add, BitVec.toNat_ofNat]
  omega

/-! Registers that hold a value. -/

section Valued
variable {s t : State}

theorem step_reg_ne_noValue (h : step s = .next t) {j : RegNo} (hj : s.reg j ≠ .noValue) : t.reg j ≠ .noValue := by
  obtain ⟨i, -, hi⟩ := step_eq_next.1 h
  exact exec_reg_ne_noValue hi hj

theorem loadElement_ne_uninitRead {ea : Word} {n : Nat} {j : RegNo} : loadElement s ea n ≠ .fault (.uninitRead j) := by
  simp [loadElement_eq_fault]

theorem indexedEA_ne_fault_of_valued (hv : s.Valued) {ra rb : RegNo} {sh : Nat} {f : Fault} :
    indexedEA s ra rb sh ≠ .fault f := by
  simp [indexedEA_eq_fault, hv ra, hv rb]

theorem updateEA_ne_fault_of_valued (hv : s.Valued) {ra rb : RegNo} {sh : Nat} {f : Fault} :
    updateEA s ra rb sh ≠ .fault f := by
  simp [updateEA_eq_fault, hv ra, hv rb]

/-- `UninitRead` comes from the reads of the effective address alone, and they all find values. -/
theorem exec_ne_uninitRead_of_valued (hv : s.Valued) (i : Instr) (j : RegNo) : exec i s ≠ .fault (.uninitRead j) := by
  cases hu : i.mnemonic.isUpdate
  · rw [exec_eq_loadIndexed i hu]
    simp [loadIndexed_eq_fault, indexedEA_ne_fault_of_valued hv, loadElement_ne_uninitRead]
  · rw [exec_eq_loadUpdate i hu]
    simp [loadUpdate_eq_fault, updateEA_ne_fault_of_valued hv, loadElement_ne_uninitRead]

theorem step_ne_uninitRead_of_valued (hv : s.Valued) (j : RegNo) : step s ≠ .fault (.uninitRead j) := by
  intro h
  obtain ⟨i, -, hi⟩ := step_eq_fault.1 h
  exact exec_ne_uninitRead_of_valued hv i j hi

theorem reaches_valued {k : Nat} (h : Reaches s k t) (hv : s.Valued) : t.Valued :=
  h.induct (fun _ _ hstep hs j => step_reg_ne_noValue hstep (hs j)) hv

end Valued

/-- Settles O52: a step writes values only, so every state of the run is fully valued. -/
theorem stepNeverTakesAValueAway : Obligations.StepNeverTakesAValueAway :=
  ⟨fun _ _ _ h hj => step_reg_ne_noValue h hj, fun _ _ _ i hv hr => step_ne_uninitRead_of_valued (reaches_valued hr hv) i⟩

/-- Settles O19: the write laws of the register file. -/
theorem registerWriteReplacesOneRegister : Obligations.RegisterWriteReplacesOneRegister := by
  intro s i w
  exact ⟨s.reg_setReg_self i w, fun j hj => s.reg_setReg_of_ne i w hj, rfl, rfl, rfl, rfl, rfl⟩

/-! The canonical form of memory. -/

theorem wf_cons {k : Nat} {b : Byte} {rest : Memory} (h : Memory.wf ((k, b) :: rest)) :
    (∀ c ∈ rest, k < c.1) ∧ b ≠ unlistedByte ∧ rest.wf := by
  obtain ⟨hs, hc⟩ := h
  obtain ⟨hk, hrest⟩ := List.pairwise_cons.1 hs
  exact ⟨hk, (hc _ (List.mem_cons_self ..)).1, hrest, fun c hm => hc c (List.mem_cons_of_mem _ hm)⟩

@[simp] theorem byte_cons_self (k : Nat) (b : Byte) (rest : Memory) : Memory.byte ((k, b) :: rest) k = b := by
  simp [Memory.byte]

theorem byte_cons_of_ne {k a : Nat} (h : a ≠ k) (b : Byte) (rest : Memory) :
    Memory.byte ((k, b) :: rest) a = rest.byte a := by
  simp [Memory.byte, h.symm]

/-- The first listed address of a canonical memory is the least one whose byte differs from an unlisted one. -/
theorem head_le_of_byte_ne {k a : Nat} {b : Byte} {rest : Memory} (h : Memory.wf ((k, b) :: rest))
    (ha : Memory.byte ((k, b) :: rest) a ≠ unlistedByte) : k ≤ a := by
  obtain ⟨hk, -, -⟩ := wf_cons h
  by_contra hlt
  refine ha (Memory.byte_of_lt fun c hc => ?_)
  rcases List.mem_cons.1 hc with rfl | hc
  · exact not_le.1 hlt
  · exact (not_le.1 hlt).trans (hk c hc)

/-- Canonical memories with the same first address that read alike have tails that read alike: at the first address itself neither tail
lists anything. -/
theorem byte_tail_congr {k : Nat} {b b' : Byte} {rest rest' : Memory} (h : Memory.wf ((k, b) :: rest))
    (h' : Memory.wf ((k, b') :: rest')) (e : ∀ a, Memory.byte ((k, b) :: rest) a = Memory.byte ((k, b') :: rest') a) (a : Nat) :
    rest.byte a = rest'.byte a := by
  obtain ⟨hk, -, -⟩ := wf_cons h
  obtain ⟨hk', -, -⟩ := wf_cons h'
  rcases eq_or_ne a k with rfl | hne
  · rw [Memory.byte_of_lt hk, Memory.byte_of_lt hk']
  · rw [← byte_cons_of_ne hne b rest, e, byte_cons_of_ne hne]

/-- Settles O24, by induction on the list: each first address is the least that reads as listed, so the first cells are equal. -/
theorem canonicalMemoriesThatReadAlikeAreEqual : Obligations.CanonicalMemoriesThatReadAlikeAreEqual := by
  intro m
  induction m with
  | nil =>
    rintro (_ | ⟨⟨k', b'⟩, rest'⟩) - h' e
    · rfl
    · obtain ⟨-, hb', -⟩ := wf_cons h'
      exact absurd (by simpa using (e k').symm) hb'
  | cons c rest ih =>
    obtain ⟨k, b⟩ := c
    intro m' h h' e
    obtain ⟨-, hb, hrest⟩ := wf_cons h
    obtain _ | ⟨⟨k', b'⟩, rest'⟩ := m'
    · exact absurd (by simpa using e k) hb
    · obtain ⟨-, hb', hrest'⟩ := wf_cons h'
      have hkk' : k = k' := le_antisymm
        (head_le_of_byte_ne h (by rw [e, byte_cons_self]; exact hb'))
        (head_le_of_byte_ne h' (by rw [← e, byte_cons_self]; exact hb))
      subst hkk'
      have hbb' : b = b' := by simpa using e k
      rw [hbb', ih rest' hrest hrest' (byte_tail_congr h h' e)]

/-! The state at reset. -/

@[simp] theorem reset_reg (i : RegNo) : State.reset.reg i = .value 0 := by
  simp [State.reg, State.reset]

/-- The one range of `Admit` at reset holds all 2^64 addresses (log entry 6). -/
theorem reset_cellAdmitted {a : Nat} (h : a < 2 ^ 64) : CellAdmitted State.reset a :=
  ⟨⟨0, 2 ^ 64⟩, List.mem_singleton.2 rfl, Nat.zero_le a, by simpa using h⟩

theorem initial_config_wf : Config.initial.wf := by decide

theorem reset_placed : State.reset.Placed := ⟨rfl, by decide, by decide⟩

theorem reset_launch : State.reset.Launch := ⟨State.reset_mem_wf, initial_config_wf, reset_placed, rfl⟩

/-- A launch state stands at instruction 0 of its text. -/
theorem inv_of_launch {s : State} (h : s.Launch) : s.Inv :=
  ⟨h.memory, h.config, h.placed, 0, Nat.zero_le _, by simpa using h.entry⟩

/-- Settles O48: the fields of the reset state, read off. -/
theorem resetIsTheNamedState : Obligations.ResetIsTheNamedState :=
  ⟨reset_reg, rfl, rfl, rfl, fun _ => rfl, fun _ => reset_cellAdmitted, rfl, rfl, rfl, rfl⟩

/-- Settles O49: reset is a launch state, and a launch state meets the invariant. -/
theorem resetMeetsTheInvariant : Obligations.ResetMeetsTheInvariant :=
  ⟨inv_of_launch reset_launch, reset_launch, fun i => by simp⟩

end Sys2Proof.Proofs
end

section
/-! PROOFS. The statements of the family 20_memory: what `MemRead` puts in each byte lane (rules R36, R39) and the refusal of a
misaligned access (rules R40, R99). -/

namespace Sys2Proof.Proofs
open Sys2Proof.Machine Sys2Proof.Claims

/-! Byte lanes. -/

theorem getElem_cells (mem : Memory) (a : Nat) {n i : Nat} (h : i < (mem.cells a n).length) :
    (mem.cells a n)[i] = mem.byte (a + i) := by
  simp [Memory.cells]

/-- Under `LE` the lanes hold the cells in rising address order. -/
theorem memRead_le_lane (mem : Memory) (a : Nat) {n i : Nat} (h : i < n) :
    (memRead .le mem a n).extractLsb' (8 * i) 8 = mem.byte (a + i) := by
  rw [memRead, ofNat_leNat_lane h (by simp), getElem_cells]

/-- Under `BE` they hold them in falling order: lane `j` is the cell at distance `n - 1 - j`. -/
theorem memRead_be_lane (mem : Memory) (a : Nat) {n j : Nat} (h : j < n) :
    (memRead .be mem a n).extractLsb' (8 * j) 8 = mem.byte (a + (n - 1 - j)) := by
  rw [memRead, ofNat_leNat_lane h (by simp), List.getElem_reverse, getElem_cells, Memory.length_cells]

/-- Settles O20: one lane lemma for each byte order; under `BE` lane `n - 1 - i` reverses to cell `i`. -/
theorem memReadPutsEachCellInItsLane : Obligations.MemReadPutsEachCellInItsLane := by
  intro mem a n i h
  refine ⟨memRead_le_lane mem a h, ?_⟩
  rw [memRead_be_lane mem a (by omega : n - 1 - i < n), show n - 1 - (n - 1 - i) = i by omega]

/-! Reads of different widths. -/

/-- Settles O21: the cells of the wide access are those of the two parts, one list after the other; under `BE` the last cells come
first in the number. -/
theorem mixedWidthReadsShareTheirCells : Obligations.MixedWidthReadsShareTheirCells := by
  intro mem a n m
  constructor
  · simp only [toNat_memRead_be, Memory.cells_add, List.reverse_append, leNat_append, List.length_reverse, Memory.length_cells]
    exact Nat.add_comm ..
  · simp only [toNat_memRead_le, Memory.cells_add, leNat_append, Memory.length_cells]

/-! The effective address of the claims, and where an instruction is refused. -/

section Refused
variable {i : Instr} {s : State}

theorem indexedEA_eq_next_iff_effectiveAddress (hu : i.mnemonic.isUpdate = false) {ea : Word} :
    indexedEA s i.ra i.rb i.sh = .next ea ↔ EffectiveAddress i s ea := by
  simp [indexedEA_eq_next, gprz_eq_next, EffectiveAddress, ReadsRA, hu, add_shiftedIndex, or_comm]

theorem updateEA_eq_next_iff_effectiveAddress (hu : i.mnemonic.isUpdate = true) {ea : Word} :
    updateEA s i.ra i.rb i.sh = .next ea ↔ EffectiveAddress i s ea := by
  simp [updateEA_eq_next, EffectiveAddress, ReadsRA, hu, add_shiftedIndex]

/-- An instruction is refused exactly where the checked read at its effective address is: an invalid form and a register without a
value are faults, and stop it before (rule R99). -/
theorem exec_eq_refused {r : Refusal} :
    exec i s = .refused r ↔
      ¬ InvalidForm i ∧ ∃ ea, EffectiveAddress i s ea ∧ loadElement s ea i.mnemonic.accessBytes = .refused r := by
  cases hu : i.mnemonic.isUpdate
  · simp [exec_eq_loadIndexed i hu, loadIndexed_eq_refused, indexedEA_eq_next_iff_effectiveAddress hu, InvalidForm, hu]
  · simp [exec_eq_loadUpdate i hu, loadUpdate_eq_refused, updateEA_eq_next_iff_effectiveAddress hu, InvalidForm, hu, and_assoc]

end Refused

/-- Settles O29: of the two refusals of the checked read, `misaligned` is the one after the wrap check. -/
theorem misalignedRefusedExactlyUnderMisalignRefuse : Obligations.MisalignedRefusedExactlyUnderMisalignRefuse := by
  intro i s
  simp only [exec_eq_refused, loadElement_eq_refused, reduceCtorEq, and_false, false_or, and_true]

end Sys2Proof.Proofs
end

section
/-! PROOFS. The statements of the family 30_encoding: the two readings and their inverses (rules R55 to R67), and where an invalid form
is raised (rules R62, R63). -/

namespace Sys2Proof.Proofs
open Sys2Proof.Machine Sys2Proof.Claims

/-! The encoded word, as the fields it packs. -/

/-- The fields of an instruction's word with their contents, as rule R55 lists them. -/
def encodedFields (cfg : Config) (i : Instr) : List (Field × Nat) :=
  [(cfg.enc.layout.po, (cfg.enc.opcode i.mnemonic).po), (cfg.enc.layout.rt, i.rt), (cfg.enc.layout.ra, i.ra),
    (cfg.enc.layout.rb, i.rb), (cfg.enc.layout.sh, i.sh), (cfg.enc.layout.xo, (cfg.enc.opcode i.mnemonic).xo)]

theorem encode_eq_packFields (cfg : Config) (i : Instr) : encode cfg i = packFields (encodedFields cfg i) := rfl

theorem map_fst_encodedFields (cfg : Config) (i : Instr) : (encodedFields cfg i).map Prod.fst = cfg.enc.layout.fields := rfl

theorem opcode_fits {e : Enc} (h : e.opcodesWf) (m : Mnemonic) :
    (e.opcode m).po < 2 ^ e.layout.po.width ∧ (e.opcode m).xo < 2 ^ e.layout.xo.width :=
  h.1 _ (Vector.mem_toList_iff.2 (Vector.getElem_mem _))

theorem field_mem_of_mem_encodedFields {cfg : Config} {i : Instr} {p : Field × Nat} (hp : p ∈ encodedFields cfg i) :
    p.1 ∈ cfg.enc.layout.fields :=
  map_fst_encodedFields cfg i ▸ List.mem_map_of_mem hp

section Encoded
variable {cfg : Config} {i : Instr}

theorem pairwise_disjoint_encodedFields (hcfg : cfg.wf) :
    (encodedFields cfg i).Pairwise fun p q => Field.Disjoint p.1 q.1 := by
  obtain ⟨-, ⟨-, -, -, -, -, hdisjoint⟩, -⟩ := hcfg
  rwa [← map_fst_encodedFields cfg i, List.pairwise_map] at hdisjoint

theorem fields_in_word (hcfg : cfg.wf) : ∀ f ∈ cfg.enc.layout.fields, f.lo + f.width ≤ 32 := by
  obtain ⟨-, ⟨-, -, -, -, hword, -⟩, -⟩ := hcfg
  exact hword

theorem packFits_encodedFields (hcfg : cfg.wf) (hi : i.wf cfg) : PackFits (encodedFields cfg i) := by
  have hword := fields_in_word hcfg
  obtain ⟨-, ⟨hrt, hra, hrb, hsh, -, -⟩, hop⟩ := hcfg
  obtain ⟨hpo, hxo⟩ := opcode_fits hop i.mnemonic
  have hval : ∀ p ∈ encodedFields cfg i, p.2 < 2 ^ p.1.width := by
    simp only [encodedFields, List.forall_mem_cons, hrt, hra, hrb, hsh]
    exact ⟨hpo, i.rt.isLt, i.ra.isLt, i.rb.isLt, hi, hxo, by simp⟩
  exact fun p hp => ⟨hword _ (field_mem_of_mem_encodedFields hp), hval p hp⟩

theorem get_encode (hcfg : cfg.wf) (hi : i.wf cfg) : ∀ p ∈ encodedFields cfg i, p.1.get (encode cfg i) = p.2 :=
  fun _ hp => Field.get_packFields (packFits_encodedFields hcfg hi) (pairwise_disjoint_encodedFields hcfg) hp

theorem encode_reserved_clear (hcfg : cfg.wf) (hi : i.wf cfg) : encode cfg i &&& ~~~cfg.enc.layout.covered = 0 := by
  rw [Layout.reserved_clear (fields_in_word hcfg)]
  intro j hj
  obtain ⟨p, hp, hin, -⟩ := (testBit_packFields (packFits_encodedFields hcfg hi) j).1 hj
  exact ⟨p.1, field_mem_of_mem_encodedFields hp, hin⟩

end Encoded

/-- Settles O35: each field of the encoded word holds what was packed into it, and no reserved bit is 1. -/
theorem decodeInvertsEncode : Obligations.DecodeInvertsEncode := by
  intro cfg i hcfg hi
  have hget := get_encode hcfg hi
  simp only [encodedFields, List.forall_mem_cons] at hget
  obtain ⟨hpo, hrt, hra, hrb, hsh, hxo, -⟩ := hget
  refine decode_eq_instr.2 ⟨i.mnemonic, ?_, encode_reserved_clear hcfg hi, ?_⟩
  · rw [Layout.opcodeOf, hpo, hxo]
    exact Enc.find_opcode hcfg.2.2 i.mnemonic
  · exact decodeOperands_eq_instr.2 ⟨i.rt, i.ra, i.rb, hrt, hra, hrb, hsh ▸ hi, by rw [hsh, i.rebuild]⟩

/-! A word, as the contents of its fields. -/

/-- A word without a reserved 1 is packed from the contents of its own fields. -/
theorem packFields_get {l : Layout} (hword : ∀ f ∈ l.fields, f.lo + f.width ≤ 32) {w : InstrWord} (hw : w &&& ~~~l.covered = 0) :
    packFields (l.fields.map fun f => (f, f.get w)) = w := by
  have hfits : PackFits (l.fields.map fun f => (f, f.get w)) :=
    List.forall_mem_map.2 fun f hf => ⟨hword f hf, f.get_lt w⟩
  apply BitVec.eq_of_toNat_eq
  apply Nat.eq_of_testBit_eq
  intro j
  rw [Bool.eq_iff_iff, testBit_packFields hfits]
  constructor
  · rintro ⟨p, hp, hin, hbit⟩
    obtain ⟨f, -, rfl⟩ := List.mem_map.1 hp
    rw [Field.testBit_get, Nat.add_sub_cancel' hin.1] at hbit
    exact (Bool.and_eq_true_iff.1 hbit).2
  · intro hbit
    obtain ⟨f, hf, hin⟩ := (Layout.reserved_clear hword w).1 hw j hbit
    refine ⟨(f, f.get w), List.mem_map_of_mem hf, hin, ?_⟩
    rw [Field.testBit_get, Nat.add_sub_cancel' hin.1, hbit, decide_eq_true (Nat.sub_lt_left_of_lt_add hin.1 hin.2), Bool.true_and]

/-- The instruction that a word decodes to has the word's field contents as its operands and opcode numbers. -/
theorem encodedFields_of_decode {cfg : Config} {w : InstrWord} {i : Instr} (h : decode cfg w = .instr i) :
    encodedFields cfg i = cfg.enc.layout.fields.map fun f => (f, f.get w) := by
  obtain ⟨m, hm, -, hops⟩ := decode_eq_instr.1 h
  obtain ⟨rt, ra, rb, hrt, hra, hrb, -, rfl⟩ := decodeOperands_eq_instr.1 hops
  simp [encodedFields, Layout.fields, Enc.opcode_of_find hm, Layout.opcodeOf, hrt, hra, hrb]

theorem wf_of_decode {cfg : Config} {w : InstrWord} {i : Instr} (h : decode cfg w = .instr i) : i.wf cfg := by
  obtain ⟨m, -, -, hops⟩ := decode_eq_instr.1 h
  obtain ⟨rt, ra, rb, -, -, -, hsh, rfl⟩ := decodeOperands_eq_instr.1 hops
  simpa [Instr.wf] using hsh

/-- Settles O36: the encoding packs the contents of the word's own fields, and outside them the word is 0. -/
theorem encodeInvertsDecode : Obligations.EncodeInvertsDecode := by
  intro cfg w i hcfg h
  obtain ⟨-, -, hclear, -⟩ := decode_eq_instr.1 h
  refine ⟨?_, wf_of_decode h⟩
  rw [encode_eq_packFields, encodedFields_of_decode h, packFields_get (fields_in_word hcfg) hclear]

/-! Where an invalid form is raised. -/

section InvalidForm
variable {s : State} {m : Mnemonic} {rt ra : RegNo}

theorem indexedEA_ne_invalidForm {a b : RegNo} {sh : Nat} : indexedEA s a b sh ≠ .fault (.invalidForm m rt ra) := by
  simp [indexedEA_eq_fault]

theorem updateEA_ne_invalidForm {a b : RegNo} {sh : Nat} : updateEA s a b sh ≠ .fault (.invalidForm m rt ra) := by
  simp [updateEA_eq_fault]

theorem loadElement_ne_invalidForm {ea : Word} {n : Nat} : loadElement s ea n ≠ .fault (.invalidForm m rt ra) := by
  simp [loadElement_eq_fault]

end InvalidForm

/-- Settles O25: of the two load shapes only the update form raises it, at its first check; the reads and the access raise other
faults. -/
theorem invalidFormExactlyWhereTheRuleSays : Obligations.InvalidFormExactlyWhereTheRuleSays := by
  intro i s m rt ra
  cases hu : i.mnemonic.isUpdate
  · simp [exec_eq_loadIndexed i hu, loadIndexed_eq_fault, indexedEA_ne_invalidForm, loadElement_ne_invalidForm, InvalidForm, hu]
  · simp [exec_eq_loadUpdate i hu, loadUpdate_eq_fault, updateEA_ne_invalidForm, loadElement_ne_invalidForm, InvalidForm, hu]

/-! The encoded word, as a sum. -/

theorem toNat_put {f : Field} {v : Nat} (hf : f.lo + f.width ≤ 32) (hv : v < 2 ^ f.width) :
    (f.put v).toNat = v * 2 ^ f.lo := by
  rw [Field.put, BitVec.toNat_ofNat, Nat.mod_eq_of_lt]
  calc v * 2 ^ f.lo < 2 ^ f.width * 2 ^ f.lo := Nat.mul_lt_mul_of_pos_right hv (Nat.two_pow_pos _)
    _ = 2 ^ (f.lo + f.width) := by rw [← pow_add, Nat.add_comm]
    _ ≤ 2 ^ 32 := Nat.pow_le_pow_right Nat.two_pos hf

/-- A field that is disjoint from every packed one meets them in no bit. -/
theorem put_and_packFields_eq_zero {p : Field × Nat} {fs : List (Field × Nat)} (h : PackFits (p :: fs))
    (hp : ∀ q ∈ fs, Field.Disjoint p.1 q.1) : p.1.put p.2 &&& packFields fs = 0#32 := by
  obtain ⟨⟨hword, hval⟩, hfs⟩ := List.forall_mem_cons.1 h
  apply BitVec.eq_of_getLsbD_eq
  intro j _
  rw [BitVec.getLsbD_and, ← BitVec.testBit_toNat, ← BitVec.testBit_toNat, Field.testBit_put hword hval, BitVec.getLsbD_zero]
  refine Bool.eq_false_iff.2 fun hj => ?_
  obtain ⟨hput, hpack⟩ := Bool.and_eq_true_iff.1 hj
  obtain ⟨hin, -⟩ := Bool.and_eq_true_iff.1 hput
  obtain ⟨q, hq, hinq, -⟩ := (testBit_packFields hfs j).1 hpack
  have hin := of_decide_eq_true hin
  rcases hp q hq with hd | hd <;> omega

/-- The packed word of disjoint fields is a sum, since no two of them share a bit. -/
theorem toNat_packFields {fs : List (Field × Nat)} (h : PackFits fs) (hd : fs.Pairwise fun p q => Field.Disjoint p.1 q.1) :
    (packFields fs).toNat = (fs.map fun p => p.2 * 2 ^ p.1.lo).sum := by
  induction fs with
  | nil => rfl
  | cons p fs ih =>
    obtain ⟨⟨hword, hval⟩, hfs⟩ := List.forall_mem_cons.1 h
    obtain ⟨hp, hdfs⟩ := List.pairwise_cons.1 hd
    have hmeet := put_and_packFields_eq_zero h hp
    calc (packFields (p :: fs)).toNat = (p.1.put p.2 + packFields fs).toNat := by
          rw [BitVec.add_eq_or_of_and_eq_zero _ _ hmeet]; rfl
      _ = (p.1.put p.2).toNat + (packFields fs).toNat := BitVec.toNat_add_of_and_eq_zero hmeet
      _ = _ := by rw [toNat_put hword hval, ih hfs hdfs, List.map_cons, List.sum_cons]

/-- Rule R55's sum, whatever the layout. -/
theorem toNat_encode {cfg : Config} {i : Instr} (hcfg : cfg.wf) (hi : i.wf cfg) :
    (encode cfg i).toNat =
      (cfg.enc.opcode i.mnemonic).po * 2 ^ cfg.enc.layout.po.lo + i.rt.val * 2 ^ cfg.enc.layout.rt.lo +
        i.ra.val * 2 ^ cfg.enc.layout.ra.lo + i.rb.val * 2 ^ cfg.enc.layout.rb.lo + i.sh * 2 ^ cfg.enc.layout.sh.lo +
        (cfg.enc.opcode i.mnemonic).xo * 2 ^ cfg.enc.layout.xo.lo := by
  rw [encode_eq_packFields, toNat_packFields (packFits_encodedFields hcfg hi) (pairwise_disjoint_encodedFields hcfg)]
  simp [encodedFields, Nat.add_assoc]

/-- Settles O37: the general sum, at the places of the provisional layout. -/
theorem provisionalWordIsTheSumOfItsFields : Obligations.ProvisionalWordIsTheSumOfItsFields := by
  intro cfg i hcfg hlayout hi
  rw [toNat_encode hcfg hi, hlayout]
  simp only [Layout.provisional, pow_one, Nat.add_zero]

/-! Words that are refused. -/

/-- Why a word is refused, in the order of rule R99: an unknown opcode, then a reserved 1, then an operand out of range. -/
theorem decode_eq_refused {cfg : Config} {w : InstrWord} {r : DecodeRefusal} :
    decode cfg w = .refused r ↔
      ((∀ m, cfg.enc.opcode m ≠ cfg.enc.layout.opcodeOf w) ∧ r = .unknownInstruction) ∨
      ∃ m, Mnemonic.all.find? (fun m => cfg.enc.opcode m == cfg.enc.layout.opcodeOf w) = some m ∧
        ((w &&& ~~~cfg.enc.layout.covered ≠ 0 ∧ r = .reservedBit) ∨
         (w &&& ~~~cfg.enc.layout.covered = 0 ∧
          decodeOperands cfg m (cfg.enc.layout.rt.get w) (cfg.enc.layout.ra.get w) (cfg.enc.layout.rb.get w)
            (cfg.enc.layout.sh.get w) = .refused r)) := by
  rw [← Enc.find_opcode_eq_none]
  unfold decode
  simp only
  split
  · next h => simp [h, eq_comm]
  · next m h =>
    rw [h]
    split_ifs with hclear
    · simp [show w &&& ~~~cfg.enc.layout.covered = 0#32 from hclear]
    · simp [show ¬ w &&& ~~~cfg.enc.layout.covered = 0#32 from hclear, eq_comm]

theorem decode_eq_unknownInstruction {cfg : Config} {w : InstrWord} :
    decode cfg w = .refused .unknownInstruction ↔ ∀ m, cfg.enc.opcode m ≠ cfg.enc.layout.opcodeOf w := by
  simp [decode_eq_refused, decodeOperands_eq_refused]

/-- Settles O39: the other two refusals are told apart by name. -/
theorem wordsWithAnUnmappedOpcodeAreUnknown : Obligations.WordsWithAnUnmappedOpcodeAreUnknown :=
  fun _ _ => decode_eq_unknownInstruction

theorem decode_eq_reservedBit {cfg : Config} {w : InstrWord} :
    decode cfg w = .refused .reservedBit ↔
      (∃ m, cfg.enc.opcode m = cfg.enc.layout.opcodeOf w) ∧ w &&& ~~~cfg.enc.layout.covered ≠ 0 := by
  have hfound : (∃ m, cfg.enc.opcode m = cfg.enc.layout.opcodeOf w) ↔
      ∃ m, Mnemonic.all.find? (fun m => cfg.enc.opcode m == cfg.enc.layout.opcodeOf w) = some m := by
    rw [← Option.ne_none_iff_exists', ne_eq, Enc.find_opcode_eq_none, not_forall_not]
  simp [hfound, decode_eq_refused, decodeOperands_eq_refused]

/-- The field PO of the provisional layout is at the top of the word, so its content needs no modulus. -/
theorem opcodeOf_provisional (w : InstrWord) :
    Layout.provisional.opcodeOf w = ⟨w.toNat / 2 ^ 26, w.toNat / 2 % 2 ^ 8⟩ := by
  have hpo : Layout.provisional.po.get w = w.toNat / 2 ^ 26 := Nat.mod_eq_of_lt (Nat.div_lt_of_lt_mul w.isLt)
  have hxo : Layout.provisional.xo.get w = w.toNat / 2 % 2 ^ 8 := rfl
  rw [Layout.opcodeOf, hpo, hxo]

/-- No field of the provisional layout covers bit 0. -/
theorem provisional_reserved {w : InstrWord} (h : w.getLsbD 0 = true) : w &&& ~~~Layout.provisional.covered ≠ 0 := by
  intro hclear
  obtain ⟨f, hf, hin, -⟩ := (Layout.reserved_clear (by decide) w).1 hclear 0 h
  have habove : ∀ f ∈ Layout.provisional.fields, 0 < f.lo := by decide
  exact absurd (habove f hf) (not_lt.2 hin)

/-- Settles O38: bit 31 (MSB0) lies in no field, and the two clauses are whether the opcode is known. -/
theorem reservedBitOfTheProvisionalLayoutIsRefused : Obligations.ReservedBitOfTheProvisionalLayoutIsRefused := by
  intro cfg w hlayout hbit
  rw [← opcodeOf_provisional, ← hlayout]
  exact ⟨fun hknown => decode_eq_reservedBit.2 ⟨hknown, hlayout ▸ provisional_reserved hbit⟩, decode_eq_unknownInstruction.2⟩

/-! Assembly lines. -/

section Assembly
variable {cfg : Config} {l : AsmLine}

theorem assemble_of_unknown_name (h : ∀ m : Mnemonic, m.name ≠ l.name) : assemble cfg l = .refused .unknownInstruction := by
  have hnone : Mnemonic.all.find? (fun m => m.name == l.name) = none := by simp [List.find?_eq_none, h]
  rw [assemble, hnone]

theorem assemble_of_name {m : Mnemonic} (h : m.name = l.name) : assemble cfg l = decodeOperands cfg m l.rt l.ra l.rb l.sh := by
  rw [assemble, ← h, Mnemonic.find_name]

theorem assemble_eq_instr {m : Mnemonic} (h : m.name = l.name) {rt ra rb : RegNo} (hrt : l.rt = rt) (hra : l.ra = ra)
    (hrb : l.rb = rb) (hsh : l.sh < 2 ^ cfg.shBits) : assemble cfg l = .instr (m.instr rt ra rb l.sh) := by
  rw [assemble_of_name h]
  exact decodeOperands_eq_instr.2 ⟨rt, ra, rb, hrt, hra, hrb, hsh, rfl⟩

end Assembly

/-- Settles O40: the name chooses the mnemonic, and then the operand check decides. -/
theorem assemblyLinesAreReadOrRefusedByName : Obligations.AssemblyLinesAreReadOrRefusedByName := by
  refine fun cfg l => ⟨assemble_of_unknown_name, fun m hm => ⟨fun hrange => ?_, fun rt ra rb => assemble_eq_instr hm⟩⟩
  rw [assemble_of_name hm]
  exact decodeOperands_eq_refused.2 ⟨hrange, rfl⟩

theorem assemble_disassemble {cfg : Config} {i : Instr} (hi : i.wf cfg) : assemble cfg (disassemble i) = .instr i := by
  rw [assemble_eq_instr (l := disassemble i) (m := i.mnemonic) rfl rfl rfl rfl hi]
  exact congrArg Decoded.instr i.rebuild

/-! Written lines. -/

/-- Each separator is the first of its kind in what is left to read: the name holds no space, and a number no comma. -/
theorem parseLine_chars {l : AsmLine} (h : ' ' ∉ l.name.toList) : parseLine l.chars = some l := by
  simp [parseLine, AsmLine.chars, splitAtChar_append h, splitAtChar_append (comma_not_mem_toDigits _), parseNumber_toDigits]

theorem space_not_mem_name (m : Mnemonic) : ' ' ∉ m.name.toList := by
  cases m <;> decide

/-- Settles O41: the line is read back, and assembling it rebuilds the instruction. -/
theorem readingAWrittenLineGivesItBack : Obligations.ReadingAWrittenLineGivesItBack := by
  refine ⟨fun l => parseLine_chars, fun cfg i hi => ?_⟩
  rw [parseLine_chars (l := disassemble i) (space_not_mem_name i.mnemonic), Option.map_some, assemble_disassemble hi]

/-! Words written out. -/

/-- Settles O42: three evaluations of the decoder. -/
theorem writtenOutWordsDecode : Obligations.WrittenOutWordsDecode := by
  unfold Obligations.WrittenOutWordsDecode
  decide

end Sys2Proof.Proofs
end

section
/-! PROOFS. The statements of the family 40_load_shifted_indexed: the loaded elements as concatenations of cells (rules R10, R36), the two
effective addresses as sums of natural numbers (rules R69, R70), and each of the twelve loads whole (rules R71 to R84, R99). -/

namespace Sys2Proof.Proofs
open Sys2Proof.Machine Sys2Proof.Claims

/-! A list of bytes, the least significant first, as the concatenation of its bytes. -/

theorem ofNat_leNat_cons (w : Nat) (b : Byte) (bs : List Byte) :
    BitVec.ofNat (w + 8) (leNat (b :: bs)) = BitVec.ofNat w (leNat bs) ++ b := by
  have hb : b.toNat < 256 := b.isLt
  have hdiv : (b.toNat + 256 * leNat bs) / 2 ^ 8 = leNat bs := by omega
  apply BitVec.eq_of_toNat_eq
  rw [BitVec.toNat_append, Nat.shiftLeft_eq, Nat.mul_comm, ← Nat.two_pow_add_eq_or_of_lt b.isLt, BitVec.toNat_ofNat,
    BitVec.toNat_ofNat, leNat_cons, Nat.add_comm w, pow_add, Nat.mod_mul, hdiv]
  omega

theorem ofNat_leNat_singleton (b : Byte) : BitVec.ofNat 8 (leNat [b]) = b := by simp

theorem ofNat_leNat_two (b₀ b₁ : Byte) : BitVec.ofNat 16 (leNat [b₀, b₁]) = b₁ ++ b₀ := by
  rw [ofNat_leNat_cons 8, ofNat_leNat_singleton]

theorem ofNat_leNat_four (b₀ b₁ b₂ b₃ : Byte) : BitVec.ofNat 32 (leNat [b₀, b₁, b₂, b₃]) = b₃ ++ b₂ ++ b₁ ++ b₀ := by
  rw [ofNat_leNat_cons 24, ofNat_leNat_cons 16, ofNat_leNat_two]

theorem ofNat_leNat_eight (b₀ b₁ b₂ b₃ b₄ b₅ b₆ b₇ : Byte) :
    BitVec.ofNat 64 (leNat [b₀, b₁, b₂, b₃, b₄, b₅, b₆, b₇]) = b₇ ++ b₆ ++ b₅ ++ b₄ ++ b₃ ++ b₂ ++ b₁ ++ b₀ := by
  rw [ofNat_leNat_cons 56, ofNat_leNat_cons 48, ofNat_leNat_cons 40, ofNat_leNat_cons 32, ofNat_leNat_four]

/-! `MemRead` of the four sizes in the words of the claims (rule R36). -/

section MemRead
variable (s : State) (ea : Word)

theorem memRead_one : memRead s.cfg.endian s.mem ea.toNat 1 = cellsAt s ea 0 := by
  cases s.cfg.endian <;> exact ofNat_leNat_singleton _

theorem memRead_two : memRead s.cfg.endian s.mem ea.toNat 2 = halfword s.cfg.endian (cellsAt s ea) := by
  cases s.cfg.endian <;> exact ofNat_leNat_two ..

theorem memRead_four : memRead s.cfg.endian s.mem ea.toNat 4 = word s.cfg.endian (cellsAt s ea) := by
  cases s.cfg.endian <;> exact ofNat_leNat_four ..

theorem memRead_eight : memRead s.cfg.endian s.mem ea.toNat 8 = doubleword s.cfg.endian (cellsAt s ea) := by
  cases s.cfg.endian <;> exact ofNat_leNat_eight ..

end MemRead

theorem memRead_congr {e : Endian} {mem mem' : Memory} {a a' n : Nat}
    (h : ∀ j, j < n → mem.byte (a + j) = mem'.byte (a' + j)) : memRead e mem a n = memRead e mem' a' n := by
  simp only [memRead, Memory.cells_congr h]

/-! The two conversions as concatenations (rules R10, R11). -/

theorem zext64_eq_zero_append {w k : Nat} (v : BitVec w) (h : k + w = 64) : zext64 v = (0#k ++ v).cast h := by
  obtain rfl : k = 64 - w := by omega
  exact BitVec.setWidth_eq_append (by omega)

theorem sext64_eq_fill_append {w k : Nat} (v : BitVec w) (h : k + w = 64) : sext64 v = (BitVec.fill k v.msb ++ v).cast h := by
  apply BitVec.eq_of_getLsbD_eq
  intro i hi
  rw [sext64, BitVec.getLsbD_signExtend, BitVec.getLsbD_cast, BitVec.getLsbD_append, BitVec.getLsbD_fill]
  by_cases hw : i < w
  · simp [hi, hw]
  · simp [hi, hw, show i - w < k by omega]

/-! What any of the fifteen instructions does in a form that is not invalid: it reads its address, makes the checked read, and completes
(rule R71). -/

/-- The value that an instruction of mnemonic `m` loads from the cells at `ea`: its conversion of `MemRead`. -/
def loadedWord (m : Mnemonic) (s : State) (ea : Word) : Word :=
  Mnemonic.conversion m (memRead s.cfg.endian s.mem ea.toNat m.accessBytes)

/-- The state that an instruction completes in: `w` in RT, and in an update form `ea` in RA. -/
def completed (i : Instr) (s : State) (w ea : Word) : State :=
  if i.mnemonic.isUpdate then afterUpdate s i.rt i.ra w ea else afterLoad s i.rt w

/-- The reads of RA and RB and their sum, as an instruction's form makes them. -/
def readAddress (i : Instr) (s : State) : Result Word :=
  if i.mnemonic.isUpdate then updateEA s i.ra i.rb i.sh else indexedEA s i.ra i.rb i.sh

section Instruction
variable {i : Instr} {s : State}

theorem not_invalidForm_of_not_update (hu : i.mnemonic.isUpdate = false) : ¬ InvalidForm i := by simp [InvalidForm, hu]

theorem readAddress_eq_next {ea : Word} : readAddress i s = .next ea ↔ EffectiveAddress i s ea := by
  unfold readAddress
  split
  · next hu => exact updateEA_eq_next_iff_effectiveAddress hu
  · next hu => exact indexedEA_eq_next_iff_effectiveAddress (Bool.not_eq_true _ ▸ hu)

theorem reg_ne_noValue_iff {j : RegNo} : s.reg j ≠ .noValue ↔ ∃ w, s.reg j = .value w := by
  cases s.reg j <;> simp

/-- RA, where it is read, stops before RB (rules R97, R99). -/
theorem readAddress_eq_fault {f : Fault} :
    readAddress i s = .fault f ↔
      (ReadsRA i ∧ s.reg i.ra = .noValue ∧ f = .uninitRead i.ra) ∨
      ((ReadsRA i → s.reg i.ra ≠ .noValue) ∧ s.reg i.rb = .noValue ∧ f = .uninitRead i.rb) := by
  unfold readAddress
  split
  · next hu => simp [updateEA_eq_fault, ReadsRA, hu, reg_ne_noValue_iff]
  · next hu =>
    by_cases h0 : i.ra = 0 <;> simp [indexedEA_eq_fault, gprz_eq_next, ReadsRA, hu, reg_ne_noValue_iff, h0]

theorem exec_of_valid (hf : ¬ InvalidForm i) :
    exec i s = Result.andThen (readAddress i s) fun ea =>
      Result.andThen (loadElement s ea i.mnemonic.accessBytes) fun v =>
      .next (completed i s (Mnemonic.conversion i.mnemonic v) ea) := by
  cases hu : i.mnemonic.isUpdate
  · simp only [exec_eq_loadIndexed i hu, readAddress, completed, hu, Bool.false_eq_true, if_false]
    rfl
  · have hvalid : ¬ (i.ra = 0 ∨ i.ra = i.rt) := fun h => hf ⟨hu, h⟩
    simp only [exec_eq_loadUpdate i hu, readAddress, completed, hu, if_true]
    exact if_neg hvalid

theorem accessAdmitted_iff {ea : Word} {n : Nat} : AccessAdmitted s ea n ↔ admitAll s.cfg ea.toNat n = true := by
  simp only [admitAll_iff, admitted_iff, AccessAdmitted, CellAdmitted]

theorem exec_eq_next_iff {t : State} :
    exec i s = .next t ↔
      ¬ InvalidForm i ∧ ∃ ea, EffectiveAddress i s ea ∧ AccessAllowed s ea i.mnemonic.accessBytes ∧
        AccessAdmitted s ea i.mnemonic.accessBytes ∧ t = completed i s (loadedWord i.mnemonic s ea) ea := by
  by_cases hf : InvalidForm i
  · simp [(invalidFormExactlyWhereTheRuleSays i s _ _ _).2 ⟨hf, rfl, rfl, rfl⟩, hf]
  · simp only [exec_of_valid hf, andThen_eq_next, readAddress_eq_next, loadElement_eq_next, accessAdmitted_iff, AccessAllowed,
      hf, not_false_eq_true, true_and, Host.Outcome.next.injEq, and_assoc, exists_and_left, exists_eq_left, loadedWord,
      eq_comm (a := t)]

/-! The stops of a form that is not invalid (rules R97, R99). -/

theorem exec_of_base_noValue (hf : ¬ InvalidForm i) (hr : ReadsRA i) (h : s.reg i.ra = .noValue) :
    exec i s = .fault (.uninitRead i.ra) := by
  rw [exec_of_valid hf, readAddress_eq_fault.2 (.inl ⟨hr, h, rfl⟩), andThen_fault]

theorem exec_of_index_noValue (hf : ¬ InvalidForm i) (hr : ReadsRA i → s.reg i.ra ≠ .noValue) (h : s.reg i.rb = .noValue) :
    exec i s = .fault (.uninitRead i.rb) := by
  rw [exec_of_valid hf, readAddress_eq_fault.2 (.inr ⟨hr, h, rfl⟩), andThen_fault]

theorem exec_of_access_fault {ea : Word} {f : Fault} (hf : ¬ InvalidForm i) (hea : EffectiveAddress i s ea)
    (h : loadElement s ea i.mnemonic.accessBytes = .fault f) : exec i s = .fault f := by
  rw [exec_of_valid hf, readAddress_eq_next.2 hea, andThen_next, h, andThen_fault]

theorem wideAccessStops_of_valid {ea : Word} (hf : ¬ InvalidForm i) (hea : EffectiveAddress i s ea) :
    WideAccessStops i i.mnemonic.accessBytes s ea := by
  refine ⟨fun hwrap => ?_, fun hin hmod hmis => ?_, fun hin hmod hmis => ?_, fun ⟨hin, hal⟩ had => ?_⟩
  · exact exec_eq_refused.2 ⟨hf, ea, hea, loadElement_eq_refused.2 (.inl ⟨hwrap, rfl⟩)⟩
  · exact exec_of_access_fault hf hea (loadElement_eq_fault.2 ⟨hin, .inl ⟨hmod, hmis, rfl⟩⟩)
  · exact exec_eq_refused.2 ⟨hf, ea, hea, loadElement_eq_refused.2 (.inr ⟨hin, hmod, hmis, rfl⟩)⟩
  · have hno : admitAll s.cfg ea.toNat i.mnemonic.accessBytes = false := by simpa [accessAdmitted_iff] using had
    exact exec_of_access_fault hf hea (loadElement_eq_fault.2 ⟨hin, .inr ⟨hal, hno, rfl⟩⟩)

end Instruction

/-! The two shapes of the claims, for any instruction: what is left to show of each is the value that it loads. -/

section Shapes
variable {i : Instr} {result : Endian → (Nat → Byte) → Word}

theorem wideLoad_of_loadedWord (hu : i.mnemonic.isUpdate = false)
    (hw : ∀ s ea, loadedWord i.mnemonic s ea = result s.cfg.endian (cellsAt s ea)) :
    WideLoad i i.mnemonic.accessBytes i.rt i.ra i.rb i.sh result := by
  intro s
  have hf := not_invalidForm_of_not_update hu
  have hreads : ReadsRA i ↔ i.ra ≠ 0 := by simp [ReadsRA, hu]
  refine ⟨fun h0 hra => exec_of_base_noValue hf (hreads.2 h0) hra, fun b hb hrb => ?_, fun b x hb hx => ?_⟩
  · refine exec_of_index_noValue hf (fun hr => ?_) hrb
    obtain ⟨h0, -⟩ | ⟨-, hra⟩ := hb
    · exact absurd h0 (hreads.1 hr)
    · simp [hra]
  · have hea : EffectiveAddress i s (addressOf b x i.sh) := by
      rw [← indexedEA_eq_next_iff_effectiveAddress hu, indexedEA_eq_next]
      exact ⟨b, x, (gprz_eq_next s i.ra).2 hb, hx, (add_shiftedIndex b x i.sh).symm⟩
    refine ⟨wideAccessStops_of_valid hf hea, fun hallow hadmit => exec_eq_next_iff.2 ⟨hf, _, hea, hallow, hadmit, ?_⟩⟩
    simp [completed, hu, hw]

theorem wideUpdate_of_loadedWord (hu : i.mnemonic.isUpdate = true)
    (hw : ∀ s ea, loadedWord i.mnemonic s ea = result s.cfg.endian (cellsAt s ea)) :
    WideUpdate i.mnemonic i i.mnemonic.accessBytes i.rt i.ra i.rb i.sh result := by
  intro s
  have valid (h0 : i.ra ≠ 0) (hne : i.ra ≠ i.rt) : ¬ InvalidForm i := fun hf => hf.2.elim h0 hne
  refine ⟨fun hf => (invalidFormExactlyWhereTheRuleSays i s _ _ _).2 ⟨⟨hu, hf⟩, rfl, rfl, rfl⟩,
    fun h0 hne hra => exec_of_base_noValue (valid h0 hne) (.inl hu) hra,
    fun h0 hne b hb hrb => exec_of_index_noValue (valid h0 hne) (fun _ => by simp [hb]) hrb, fun h0 hne b x hb hx => ?_⟩
  have hea : EffectiveAddress i s (addressOf b x i.sh) := ⟨b, x, .inl ⟨.inl hu, hb⟩, hx, rfl⟩
  refine ⟨wideAccessStops_of_valid (valid h0 hne) hea,
    fun hallow hadmit => exec_eq_next_iff.2 ⟨valid h0 hne, _, hea, hallow, hadmit, ?_⟩⟩
  simp [completed, hu, hw]

end Shapes

/-! An access of one byte is in no way wide: it never wraps, is always aligned, and its one cell is the cell at EA. -/

section Byte
variable {s : State} {ea : Word}

theorem accessAllowed_one : AccessAllowed s ea 1 := ⟨ea.isLt, .inl (Nat.mod_one _)⟩

theorem accessAdmitted_one : AccessAdmitted s ea 1 ↔ CellAdmitted s ea.toNat := by
  simp [AccessAdmitted]

variable {m : Mnemonic} {i : Instr} {rt ra rb : RegNo} {sh : Nat} {result : Byte → Word}

theorem byteLoad_of_wideLoad (h : WideLoad i 1 rt ra rb sh fun _ B => result (B 0)) : ByteLoad i rt ra rb sh result := by
  intro s
  obtain ⟨hra, hrb, haccess⟩ := h s
  refine ⟨hra, hrb, fun b x hb hx => ?_⟩
  obtain ⟨⟨-, -, -, hfault⟩, hnext⟩ := haccess b x hb hx
  exact ⟨fun hc => hfault accessAllowed_one (mt accessAdmitted_one.1 hc),
    fun hc => hnext accessAllowed_one (accessAdmitted_one.2 hc)⟩

theorem byteUpdate_of_wideUpdate (h : WideUpdate m i 1 rt ra rb sh fun _ B => result (B 0)) :
    ByteUpdate m i rt ra rb sh result := by
  intro s
  obtain ⟨hinvalid, hra, hrb, haccess⟩ := h s
  refine ⟨hinvalid, hra, hrb, fun h0 hne b x hb hx => ?_⟩
  obtain ⟨⟨-, -, -, hfault⟩, hnext⟩ := haccess h0 hne b x hb hx
  exact ⟨fun hc => hfault accessAllowed_one (mt accessAdmitted_one.1 hc),
    fun hc => hnext accessAllowed_one (accessAdmitted_one.2 hc)⟩

end Byte

/-! The values of the twelve loads. -/

section Values
variable (s : State) (ea : Word)

theorem zext64_byte : zext64 (memRead s.cfg.endian s.mem ea.toNat 1) = 0#56 ++ cellsAt s ea 0 := by
  rw [memRead_one]
  exact zext64_eq_zero_append _ rfl

theorem zext64_halfword : zext64 (memRead s.cfg.endian s.mem ea.toNat 2) = 0#48 ++ halfword s.cfg.endian (cellsAt s ea) := by
  rw [memRead_two]
  exact zext64_eq_zero_append _ rfl

theorem sext64_halfword :
    sext64 (memRead s.cfg.endian s.mem ea.toNat 2) =
      BitVec.fill 48 (halfword s.cfg.endian (cellsAt s ea)).msb ++ halfword s.cfg.endian (cellsAt s ea) := by
  rw [memRead_two]
  exact sext64_eq_fill_append _ rfl

theorem zext64_word : zext64 (memRead s.cfg.endian s.mem ea.toNat 4) = 0#32 ++ word s.cfg.endian (cellsAt s ea) := by
  rw [memRead_four]
  exact zext64_eq_zero_append _ rfl

theorem sext64_word :
    sext64 (memRead s.cfg.endian s.mem ea.toNat 4) =
      BitVec.fill 32 (word s.cfg.endian (cellsAt s ea)).msb ++ word s.cfg.endian (cellsAt s ea) := by
  rw [memRead_four]
  exact sext64_eq_fill_append _ rfl

end Values

/-! The twelve loads: the shape of each, at the value that it loads. -/

/-- Settles O1: the shape of a non-update byte load, at the byte with 56 zero bits above it (rule R73). -/
theorem lbzsxLoadsByteZeroExtended : Obligations.LbzsxLoadsByteZeroExtended := fun rt ra rb sh =>
  byteLoad_of_wideLoad (wideLoad_of_loadedWord (i := .lbzsx rt ra rb sh) rfl zext64_byte)

/-- Settles O2: the shape of an update byte load, at the same value (rule R74). -/
theorem lbzsuxLoadsByteAndUpdatesBase : Obligations.LbzsuxLoadsByteAndUpdatesBase := fun rt ra rb sh =>
  byteUpdate_of_wideUpdate (wideUpdate_of_loadedWord (i := .lbzsux rt ra rb sh) rfl zext64_byte)

/-- Settles O3: the shape of a non-update load, at the halfword with 48 zero bits above it (rule R75). -/
theorem lhzsxLoadsHalfwordZeroExtended : Obligations.LhzsxLoadsHalfwordZeroExtended := fun rt ra rb sh =>
  wideLoad_of_loadedWord (i := .lhzsx rt ra rb sh) rfl zext64_halfword

/-- Settles O4: the shape of an update load, at the same value (rule R76). -/
theorem lhzsuxLoadsHalfwordAndUpdatesBase : Obligations.LhzsuxLoadsHalfwordAndUpdatesBase := fun rt ra rb sh =>
  wideUpdate_of_loadedWord (i := .lhzsux rt ra rb sh) rfl zext64_halfword

/-- Settles O5: the shape of a non-update load, at the halfword with 48 copies of its top bit above it (rule R77). -/
theorem lhasxLoadsHalfwordSignExtended : Obligations.LhasxLoadsHalfwordSignExtended := fun rt ra rb sh =>
  wideLoad_of_loadedWord (i := .lhasx rt ra rb sh) rfl sext64_halfword

/-- Settles O6: the shape of an update load, at the same value (rule R78). -/
theorem lhasuxLoadsHalfwordAlgebraicAndUpdatesBase : Obligations.LhasuxLoadsHalfwordAlgebraicAndUpdatesBase :=
  fun rt ra rb sh => wideUpdate_of_loadedWord (i := .lhasux rt ra rb sh) rfl sext64_halfword

/-- Settles O7: the shape of a non-update load, at the word with 32 zero bits above it (rule R79). -/
theorem lwzsxLoadsWordZeroExtended : Obligations.LwzsxLoadsWordZeroExtended := fun rt ra rb sh =>
  wideLoad_of_loadedWord (i := .lwzsx rt ra rb sh) rfl zext64_word

/-- Settles O8: the shape of an update load, at the same value (rule R80). -/
theorem lwzsuxLoadsWordAndUpdatesBase : Obligations.LwzsuxLoadsWordAndUpdatesBase := fun rt ra rb sh =>
  wideUpdate_of_loadedWord (i := .lwzsux rt ra rb sh) rfl zext64_word

/-- Settles O9: the shape of a non-update load, at the word with 32 copies of its top bit above it (rule R81). -/
theorem lwasxLoadsWordSignExtended : Obligations.LwasxLoadsWordSignExtended := fun rt ra rb sh =>
  wideLoad_of_loadedWord (i := .lwasx rt ra rb sh) rfl sext64_word

/-- Settles O10: the shape of an update load, at the same value (rule R82). -/
theorem lwasuxLoadsWordAlgebraicAndUpdatesBase : Obligations.LwasuxLoadsWordAlgebraicAndUpdatesBase := fun rt ra rb sh =>
  wideUpdate_of_loadedWord (i := .lwasux rt ra rb sh) rfl sext64_word

/-- Settles O11: the shape of a non-update load, at the doubleword as it is read (rule R83). -/
theorem ldsxLoadsDoubleword : Obligations.LdsxLoadsDoubleword := fun rt ra rb sh =>
  wideLoad_of_loadedWord (i := .ldsx rt ra rb sh) rfl memRead_eight

/-- Settles O12: the shape of an update load, at the same value (rule R84). -/
theorem ldsuxLoadsDoublewordAndUpdatesBase : Obligations.LdsuxLoadsDoublewordAndUpdatesBase := fun rt ra rb sh =>
  wideUpdate_of_loadedWord (i := .ldsux rt ra rb sh) rfl memRead_eight

/-! The effective addresses. -/

/-- Settles O17: the address of the claims, whose inner reduction modulo 2^64 the outer one covers. -/
theorem nonUpdateAddressIsBasePlusShiftedIndex : Obligations.NonUpdateAddressIsBasePlusShiftedIndex := by
  intro s ra rb sh b x hb hx
  have hea : indexedEA s ra rb sh = .next (addressOf b x sh) :=
    indexedEA_eq_next.2 ⟨b, x, (gprz_eq_next s ra).2 hb, hx, (add_shiftedIndex b x sh).symm⟩
  rw [Nat.add_mod_mod]
  exact ⟨hea, hea⟩

/-- Settles O18: as O17, and b + b * 2^(SH+1) is b * (1 + 2^(SH+1)). -/
theorem updateAddressIsBasePlusShiftedIndex : Obligations.UpdateAddressIsBasePlusShiftedIndex := by
  intro s ra rb sh b hb
  have hea {r : RegNo} {x : Word} (hx : s.reg r = .value x) : updateEA s ra r sh = .next (addressOf b x sh) :=
    updateEA_eq_next.2 ⟨b, x, hb, hx, (add_shiftedIndex b x sh).symm⟩
  refine ⟨fun x hx => ?_, ?_⟩
  · rw [Nat.add_mod_mod]
    exact hea hx
  · rw [Nat.mul_add, Nat.mul_one]
    exact hea hb

/-! Completion, and the loaded value as a function of the cells. -/

/-- Settles O31: `exec_eq_next_iff` names the state of completion, and it always exists. -/
theorem completesExactlyWhereNoCheckStops : Obligations.CompletesExactlyWhereNoCheckStops := by
  intro i s
  simp only [exec_eq_next_iff]
  constructor
  · rintro ⟨t, hf, ea, hea, hallow, hadmit, -⟩
    exact ⟨hf, ea, hea, hallow, hadmit⟩
  · rintro ⟨hf, ea, hea, hallow, hadmit⟩
    exact ⟨_, hf, ea, hea, hallow, hadmit, rfl⟩

/-- In an update form RA differs from RT, so RT keeps the loaded value. -/
theorem completed_reg_target {i : Instr} (hf : ¬ InvalidForm i) (s : State) (w ea : Word) :
    (completed i s w ea).reg i.rt = .value w := by
  unfold completed
  split
  · next hu =>
    have hne : i.rt ≠ i.ra := fun h => hf ⟨hu, .inr h.symm⟩
    exact ((s.setReg i.rt w).reg_setReg_of_ne i.ra ea hne).trans (s.reg_setReg_self i.rt w)
  · exact s.reg_setReg_self i.rt w

theorem effectiveAddress_unique {i : Instr} {s : State} {ea ea' : Word} (h : EffectiveAddress i s ea)
    (h' : EffectiveAddress i s ea') : ea = ea' :=
  Host.Outcome.next.inj ((readAddress_eq_next.2 h).symm.trans (readAddress_eq_next.2 h'))

theorem exec_reg_target_eq_loadedWord {i : Instr} {s t : State} {ea : Word} (hea : EffectiveAddress i s ea)
    (h : exec i s = .next t) : t.reg i.rt = .value (loadedWord i.mnemonic s ea) := by
  obtain ⟨hf, ea', hea', -, -, rfl⟩ := exec_eq_next_iff.1 h
  rw [completed_reg_target hf, effectiveAddress_unique hea hea']

theorem loadedWord_congr (m : Mnemonic) {s s' : State} {ea ea' : Word} (he : s.cfg.endian = s'.cfg.endian)
    (hcells : ∀ j, j < m.accessBytes → s.mem.byte (ea.toNat + j) = s'.mem.byte (ea'.toNat + j)) :
    loadedWord m s ea = loadedWord m s' ea' := by
  rw [loadedWord, loadedWord, he, memRead_congr hcells]

/-- Settles O33: both targets hold the word loaded by the one mnemonic from the equal cells. -/
theorem loadedValueDependsOnCellsAndByteOrderAlone : Obligations.LoadedValueDependsOnCellsAndByteOrderAlone := by
  intro i i' s s' t t' ea ea' hm he hea hea' hcells h h'
  rw [exec_reg_target_eq_loadedWord hea h, exec_reg_target_eq_loadedWord hea' h', ← hm, loadedWord_congr _ he hcells]

end Sys2Proof.Proofs
end

section
/-! PROOFS. The statements of the family 41_load_byte_reverse_shifted: `brev` as the concatenation of an element's bytes and as its own
inverse (rules R10, R85), each of the three byte-reverse loads whole (rules R86 to R88), and the plain load of the other byte order
that each of them is (rule R89). -/

namespace Sys2Proof.Proofs
open Sys2Proof.Machine Sys2Proof.Claims

/-! Byte reversal (rule R85). -/

theorem brev_two (v : BitVec (8 * 2)) : brev 2 v = v.extractLsb' 0 8 ++ v.extractLsb' 8 8 :=
  ofNat_leNat_two ..

theorem brev_four (v : BitVec (8 * 4)) :
    brev 4 v = v.extractLsb' 0 8 ++ v.extractLsb' 8 8 ++ v.extractLsb' 16 8 ++ v.extractLsb' 24 8 :=
  ofNat_leNat_four ..

theorem brev_eight (v : BitVec (8 * 8)) :
    brev 8 v = v.extractLsb' 0 8 ++ v.extractLsb' 8 8 ++ v.extractLsb' 16 8 ++ v.extractLsb' 24 8 ++
      v.extractLsb' 32 8 ++ v.extractLsb' 40 8 ++ v.extractLsb' 48 8 ++ v.extractLsb' 56 8 :=
  ofNat_leNat_eight ..

@[simp] theorem brev_brev (n : Nat) (v : BitVec (8 * n)) : brev n (brev n v) = v := by
  rw [brev, bytesOf_brev, List.reverse_reverse, ofNat_leNat_bytesOf]

/-- Settles O22: the reversed bytes of an element, listed, and the reversal of a reversed list. -/
theorem byteReversalReversesTheBytes : Obligations.ByteReversalReversesTheBytes :=
  ⟨brev_two, brev_four, brev_eight, brev_brev⟩

/-! The values of the three loads. -/

section Values
variable (s : State) (ea : Word)

theorem zext64_brev_halfword :
    zext64 (brev 2 (memRead s.cfg.endian s.mem ea.toNat 2)) =
      let v := halfword s.cfg.endian (cellsAt s ea)
      0#48 ++ (v.extractLsb' 0 8 ++ v.extractLsb' 8 8) := by
  rw [memRead_two, brev_two]
  exact zext64_eq_zero_append _ rfl

theorem zext64_brev_word :
    zext64 (brev 4 (memRead s.cfg.endian s.mem ea.toNat 4)) =
      let v := word s.cfg.endian (cellsAt s ea)
      0#32 ++ (v.extractLsb' 0 8 ++ v.extractLsb' 8 8 ++ v.extractLsb' 16 8 ++ v.extractLsb' 24 8) := by
  rw [memRead_four, brev_four]
  exact zext64_eq_zero_append _ rfl

theorem brev_doubleword :
    brev 8 (memRead s.cfg.endian s.mem ea.toNat 8) =
      let v := doubleword s.cfg.endian (cellsAt s ea)
      v.extractLsb' 0 8 ++ v.extractLsb' 8 8 ++ v.extractLsb' 16 8 ++ v.extractLsb' 24 8 ++
        v.extractLsb' 32 8 ++ v.extractLsb' 40 8 ++ v.extractLsb' 48 8 ++ v.extractLsb' 56 8 := by
  rw [memRead_eight]
  exact brev_eight _

end Values

/-! The three loads: the shape of a non-update load, at the value that each loads. -/

/-- Settles O13: the shape of a non-update load, at the halfword's two bytes swapped with 48 zero bits above them (rule R86). -/
theorem lhbrsxLoadsHalfwordByteReversed : Obligations.LhbrsxLoadsHalfwordByteReversed := fun rt ra rb sh =>
  wideLoad_of_loadedWord (i := .lhbrsx rt ra rb sh) rfl zext64_brev_halfword

/-- Settles O14: the shape of a non-update load, at the word's bytes reversed with 32 zero bits above them (rule R87). -/
theorem lwbrsxLoadsWordByteReversed : Obligations.LwbrsxLoadsWordByteReversed := fun rt ra rb sh =>
  wideLoad_of_loadedWord (i := .lwbrsx rt ra rb sh) rfl zext64_brev_word

/-- Settles O15: the shape of a non-update load, at the doubleword's bytes reversed (rule R88). -/
theorem ldbrsxLoadsDoublewordByteReversed : Obligations.LdbrsxLoadsDoublewordByteReversed := fun rt ra rb sh =>
  wideLoad_of_loadedWord (i := .ldbrsx rt ra rb sh) rfl brev_doubleword

/-! The other byte order (rule R89): what an address, an access and a load see of it. -/

/-- Reversing the bytes of an element is reading it in the other byte order. -/
theorem brev_memRead_other (e : Endian) (mem : Memory) (a n : Nat) :
    brev n (memRead (other e) mem a n) = memRead e mem a n := by
  cases e
  · rw [brev, other, bytesOf_memRead_le, memRead]
  · rw [brev, other, bytesOf_memRead_be, List.reverse_reverse, memRead]

section WithEndian
variable (e : Endian) (s : State)

/-- An address is made of registers alone. -/
theorem indexedEA_withEndian (ra rb : RegNo) (sh : Nat) : indexedEA (withEndian e s) ra rb sh = indexedEA s ra rb sh := rfl

/-- No check of an access looks at the byte order, so it stops under both orders alike; what it reads is reversed. -/
theorem loadElement_withEndian (ea : Word) (n : Nat) :
    loadElement (withEndian e s) ea n =
      Result.andThen (loadElement (withEndian (other e) s) ea n) fun v => .next (brev n v) := by
  cases h : loadElement (withEndian (other e) s) ea n with
  | next v =>
    obtain ⟨hin, haligned, hadmit, rfl⟩ := loadElement_eq_next.1 h
    exact loadElement_eq_next.2 ⟨hin, haligned, hadmit, brev_memRead_other ..⟩
  | fault f =>
    have hstop := loadElement_eq_fault.1 h
    exact loadElement_eq_fault.2 hstop
  | refused r =>
    have hstop := loadElement_eq_refused.1 h
    exact loadElement_eq_refused.2 hstop

/-- A load that reverses what it reads before its conversion is the load without the reversal under the other byte order. -/
theorem loadIndexed_brev_withEndian {n : Nat} (ext : BitVec (8 * n) → Word) (rt ra rb : RegNo) (sh : Nat) :
    loadIndexed n (fun v => ext (brev n v)) rt ra rb sh (withEndian e s) =
      mapNext (withEndian e) (loadIndexed n ext rt ra rb sh (withEndian (other e) s)) := by
  simp only [loadIndexed, mapNext_andThen, indexedEA_withEndian]
  congr 1
  funext ea
  rw [loadElement_withEndian e]
  cases loadElement (withEndian (other e) s) ea n with
  | next v => simp only [andThen_next, brev_brev]; rfl
  | fault f => rfl
  | refused r => rfl

end WithEndian

/-- Settles O23: the three pairs are loads of one size and one conversion, with the reversal and without it. -/
theorem byteReverseLoadsAreThePlainLoadsOfTheOtherOrder : Obligations.ByteReverseLoadsAreThePlainLoadsOfTheOtherOrder :=
  fun s e rt ra rb sh =>
    ⟨loadIndexed_brev_withEndian e s zext64 rt ra rb sh, loadIndexed_brev_withEndian e s zext64 rt ra rb sh,
      loadIndexed_brev_withEndian (n := 8) e s (fun v => v) rt ra rb sh⟩

end Sys2Proof.Proofs
end

section
/-! PROOFS. The statements of the family 60_exceptions: where each fault and refusal of an instruction is raised, in the order of rule
R99 (rules R93 to R95, R97), and what a step does at an instruction of the program text, at its end and outside it (rules R91, R96,
R106, R109). -/

namespace Sys2Proof.Proofs
open Sys2Proof.Machine Sys2Proof.Claims

/-! Where an instruction faults. -/

section Faults
variable {i : Instr} {s : State}

/-- The three places a fault of an instruction comes from: its form, the reads of its address, and the checked read there (rule R99). -/
theorem exec_eq_fault {f : Fault} :
    exec i s = .fault f ↔
      (InvalidForm i ∧ f = .invalidForm i.mnemonic i.rt i.ra) ∨
      (¬ InvalidForm i ∧
        (readAddress i s = .fault f ∨
          ∃ ea, EffectiveAddress i s ea ∧ loadElement s ea i.mnemonic.accessBytes = .fault f)) := by
  by_cases hf : InvalidForm i
  · have hraised := (invalidFormExactlyWhereTheRuleSays i s _ _ _).2 ⟨hf, rfl, rfl, rfl⟩
    simp [hraised, hf, eq_comm]
  · simp [exec_of_valid hf, andThen_eq_fault, readAddress_eq_next, hf]

/-- A fault that names an address is raised by the checked read alone. -/
theorem exec_eq_access_fault {f : Fault} (hform : ∀ m rt ra, f ≠ .invalidForm m rt ra) (hread : ∀ j, f ≠ .uninitRead j) :
    exec i s = .fault f ↔
      ¬ InvalidForm i ∧ ∃ ea, EffectiveAddress i s ea ∧ loadElement s ea i.mnemonic.accessBytes = .fault f := by
  simp [exec_eq_fault, readAddress_eq_fault, hform, hread]

theorem loadElement_eq_alignmentFault {ea ea' : Word} {n : Nat} :
    loadElement s ea' n = .fault (.alignmentFault ea) ↔
      ea = ea' ∧ ea.toNat + n ≤ 2 ^ 64 ∧ ea.toNat % n ≠ 0 ∧ s.cfg.misalign = .fault := by
  rw [loadElement_eq_fault]
  constructor
  · rintro ⟨hin, ⟨hmod, hmis, ⟨⟩⟩ | ⟨-, -, ⟨⟩⟩⟩
    exact ⟨rfl, hin, hmod, hmis⟩
  · rintro ⟨rfl, hin, hmod, hmis⟩
    exact ⟨hin, .inl ⟨hmod, hmis, rfl⟩⟩

theorem admitAll_eq_false_iff {ea : Word} {n : Nat} :
    admitAll s.cfg ea.toNat n = false ↔ ∃ j, j < n ∧ ¬ CellAdmitted s (ea.toNat + j) := by
  rw [← Bool.not_eq_true, ← accessAdmitted_iff, AccessAdmitted]
  simp only [not_forall, exists_prop]

theorem loadElement_eq_storageFault {ea ea' : Word} {n : Nat} :
    loadElement s ea' n = .fault (.storageFault ea) ↔
      ea = ea' ∧ AccessAllowed s ea n ∧ ∃ j, j < n ∧ ¬ CellAdmitted s (ea.toNat + j) := by
  rw [loadElement_eq_fault, ← admitAll_eq_false_iff]
  constructor
  · rintro ⟨hin, ⟨-, -, ⟨⟩⟩ | ⟨hal, had, ⟨⟩⟩⟩
    exact ⟨rfl, ⟨hin, hal⟩, had⟩
  · rintro ⟨rfl, ⟨hin, hal⟩, had⟩
    exact ⟨hin, .inr ⟨hal, had, rfl⟩⟩

end Faults

/-- Settles O26: only the reads of the address raise it, RA before RB. -/
theorem uninitReadExactlyOfAReadRegisterWithoutValue : Obligations.UninitReadExactlyOfAReadRegisterWithoutValue := by
  intro i s j
  simp only [exec_eq_fault, readAddress_eq_fault, loadElement_ne_uninitRead, Fault.uninitRead.injEq, reduceCtorEq, and_false,
    exists_false, or_false, false_or]

/-- Settles O27: the wrap check is the first of the checked read, and an access of one byte passes it. -/
theorem addressWrapExactlyPastTheTop : Obligations.AddressWrapExactlyPastTheTop := by
  intro i s
  have hiff : exec i s = .refused .addressWrap ↔
      ¬ InvalidForm i ∧ ∃ ea, EffectiveAddress i s ea ∧ 2 ^ 64 < ea.toNat + i.mnemonic.accessBytes := by
    simp only [exec_eq_refused, loadElement_eq_refused, reduceCtorEq, and_false, or_false, and_true]
  refine ⟨hiff, fun hbyte h => ?_⟩
  obtain ⟨-, ea, -, hwrap⟩ := hiff.1 h
  obtain ⟨hin, -⟩ := accessAllowed_one (s := s) (ea := ea)
  exact absurd (hbyte ▸ hwrap) (not_lt.2 hin)

/-- Settles O28: the alignment check of the checked read, which an access of one byte always passes. -/
theorem alignmentFaultExactlyUnderMisalignFault : Obligations.AlignmentFaultExactlyUnderMisalignFault := by
  intro i s ea
  have hiff : exec i s = .fault (.alignmentFault ea) ↔
      ¬ InvalidForm i ∧ EffectiveAddress i s ea ∧ ea.toNat + i.mnemonic.accessBytes ≤ 2 ^ 64 ∧
        ea.toNat % i.mnemonic.accessBytes ≠ 0 ∧ s.cfg.misalign = .fault := by
    rw [exec_eq_access_fault (by simp) (by simp)]
    simp only [loadElement_eq_alignmentFault, and_left_comm, exists_eq_left']
  refine ⟨hiff, fun hbyte h => ?_⟩
  obtain ⟨-, -, -, hmod, -⟩ := hiff.1 h
  exact hmod (hbyte ▸ Nat.mod_one _)

/-- Settles O30: the admission check, the last of the checked read. -/
theorem storageFaultExactlyOfAnUnadmittedCell : Obligations.StorageFaultExactlyOfAnUnadmittedCell := by
  intro i s ea
  rw [exec_eq_access_fault (by simp) (by simp)]
  simp only [loadElement_eq_storageFault, and_left_comm, exists_eq_left']

/-! What a step does at each address (rules R91, R96, R106, R109). -/

section Fetch
variable {s : State} {k : Nat}

/-- The bound keeps `4k` from wrapping, so pc and its distance above the base fix each other. -/
theorem pc_eq_iff_offset (hk : 4 * k < 2 ^ 64) : s.pc = s.base + BitVec.ofNat 64 (4 * k) ↔ s.offset = 4 * k :=
  ⟨State.offset_of_pc hk, fun h => by rw [s.pc_eq_base_add_offset, h]⟩

theorem lt_length_of_read {d : Decoded} (hd : s.text.read? s.cfg k = some d) : k < s.text.length := by
  by_contra hge
  simp [Text.read?_eq_none.2 (not_lt.1 hge)] at hd

theorem fetch_of_read_refused {r : DecodeRefusal} (hoff : s.offset = 4 * k)
    (hd : s.text.read? s.cfg k = some (.refused r)) : fetch s = .refused (refusalOf r) := by
  have hlt := lt_length_of_read hd
  have hdiv : s.offset / 4 = k := by omega
  unfold fetch
  split_ifs with hmod hend
  · omega
  · omega
  · rw [hdiv, hd]

theorem step_of_read_instr {i : Instr} (hoff : s.offset = 4 * k) (hd : s.text.read? s.cfg k = some (.instr i)) :
    step s = exec i s := by
  have hlt := lt_length_of_read hd
  have hdiv : s.offset / 4 = k := by omega
  rw [step, fetch_eq_next.2 ⟨by omega, by omega, hdiv ▸ hd⟩, andThen_next]

theorem step_of_read_refused {r : DecodeRefusal} (hoff : s.offset = 4 * k)
    (hd : s.text.read? s.cfg k = some (.refused r)) : step s = .refused (refusalOf r) := by
  rw [step, fetch_of_read_refused hoff hd, andThen_refused]

theorem fetch_of_outside (h : s.offset % 4 ≠ 0 ∨ s.text.length < s.offset / 4) : fetch s = .refused .unknownInstruction := by
  unfold fetch
  split_ifs with hmod hend
  · rfl
  · omega
  · rw [Text.read?_eq_none.2 (by omega)]

/-- Outside the text and its end pc is not a multiple of 4 above the base, or beyond the end. -/
theorem offset_of_not_inText (h : ¬ s.InText) : s.offset % 4 ≠ 0 ∨ s.text.length < s.offset / 4 := by
  by_contra hin
  refine h ⟨s.offset / 4, by omega, ?_⟩
  rw [pc_eq_iff_offset (by have : s.offset < 2 ^ 64 := BitVec.isLt _; omega)]
  omega

/-- No instruction answers `End`: the checked read, which alone refuses, has other refusals. -/
theorem exec_ne_programEnd {i : Instr} : exec i s ≠ .refused .programEnd := by
  simp [exec_eq_refused, loadElement_eq_refused]

theorem step_eq_programEnd : step s = .refused .programEnd ↔ s.offset = 4 * s.text.length := by
  simp only [step_eq_refused, exec_ne_programEnd, and_false, exists_false, or_false, fetch_eq_programEnd]
  omega

end Fetch

/-- Settles O45: only the fetch answers `End`, at the one address whose offset is the length of the text. -/
theorem endExactlyAtTheEndAddress : Obligations.EndExactlyAtTheEndAddress := by
  intro s hs
  have hshort := hs.short
  rw [step_eq_programEnd, pc_eq_iff_offset (by omega)]

/-- Settles O46: outside the text the fetch finds nothing to read. -/
theorem noInstructionStandsOutsideTheText : Obligations.NoInstructionStandsOutsideTheText := by
  intro s _ hout
  rw [step, fetch_of_outside (offset_of_not_inText hout), andThen_refused]

/-- Settles O43: instruction k of a binary text is read by `decode`. -/
theorem stepRunsTheDecodedWord : Obligations.StepRunsTheDecodedWord := by
  intro s ws k w htext hw hk hpc
  have hoff := State.offset_of_pc hk hpc
  have hread {d : Decoded} (hd : decode s.cfg w = d) : s.text.read? s.cfg k = some d := by simp [htext, Text.read?, hw, hd]
  exact ⟨fun i hd => step_of_read_instr hoff (hread hd), fun hd => step_of_read_refused hoff (hread hd),
    fun hd => step_of_read_refused hoff (hread hd), fun hd => step_of_read_refused hoff (hread hd)⟩

/-- Settles O44: instruction k of an assembly text is read by `assemble`. -/
theorem stepRunsTheAssemblyLine : Obligations.StepRunsTheAssemblyLine := by
  intro s ls k l htext hl hk hpc
  have hoff := State.offset_of_pc hk hpc
  have hread {d : Decoded} (hd : assemble s.cfg l = d) : s.text.read? s.cfg k = some d := by simp [htext, Text.read?, hl, hd]
  exact ⟨fun i hd => step_of_read_instr hoff (hread hd), fun hd => step_of_read_refused hoff (hread hd),
    fun hd => step_of_read_refused hoff (hread hd)⟩

end Sys2Proof.Proofs
end

section
/-! PROOFS. The statements of the family 70_reset_and_hazards: the host's placing of one word, and the length of every run from a launch
state (rules R28, R106, R109). -/

namespace Sys2Proof.Proofs
open Sys2Proof.Machine Sys2Proof.Claims

/-! The length of a run from a launch state (rules R28, R109). -/

/-- A run of n steps goes through, or one of them is reached and does not complete. -/
theorem reaches_or_stops (s : State) (n : Nat) :
    (∃ t, Reaches s n t) ∨ ∃ k, k < n ∧ ∃ t, Reaches s k t ∧ ∀ u, step t ≠ .next u := by
  induction n with
  | zero => exact .inl ⟨s, reaches_zero.2 rfl⟩
  | succ n ih =>
    obtain ⟨t, hr⟩ | ⟨k, hk, hstop⟩ := ih
    · by_cases hstep : ∃ u, step t = .next u
      · obtain ⟨u, hu⟩ := hstep
        exact .inl ⟨u, reaches_succ_last.2 ⟨t, hr, hu⟩⟩
      · exact .inr ⟨n, n.lt_succ_self, t, hr, not_exists.1 hstep⟩
    · exact .inr ⟨k, hk.trans n.lt_succ_self, hstop⟩

section Run
variable {s t : State} {k : Nat}

theorem step_pc (h : step s = .next t) : t.pc = s.pc + 4 := by
  obtain ⟨i, -, hi⟩ := step_eq_next.1 h
  exact exec_pc hi

/-- A step that completes reads an instruction of the text, so the distance from the base goes up by 4 without wrapping. -/
theorem step_offset (hs : s.Placed) (h : step s = .next t) : s.offset < 4 * s.text.length ∧ t.offset = s.offset + 4 := by
  obtain ⟨i, hf, -⟩ := step_eq_next.1 h
  have hlt := fetch_index_lt hf
  have hshort := hs.short
  refine ⟨by omega, ?_⟩
  calc t.offset = (s.pc - s.base + 4).toNat := by
        rw [State.offset, step_pc h, (step_sameLaunchData h).base]; congr 1; ring
    _ = (s.offset + 4) % 2 ^ 64 := BitVec.toNat_add ..
    _ = s.offset + 4 := Nat.mod_eq_of_lt (by omega)

theorem launch_offset (hs : s.Launch) : s.offset = 0 := by simp [State.offset, hs.entry]

/-- From a launch state pc goes up through the text, one instruction a step, and not past its end. -/
theorem reaches_offset (hs : s.Launch) (h : Reaches s k t) : k ≤ s.text.length ∧ t.offset = 4 * k := by
  induction k generalizing t with
  | zero => exact reaches_zero.1 h ▸ ⟨Nat.zero_le _, launch_offset hs⟩
  | succ k ih =>
    obtain ⟨u, hr, hstep⟩ := reaches_succ_last.1 h
    obtain ⟨-, hoff⟩ := ih hr
    have kept := reaches_sameLaunchData hr
    obtain ⟨hlt, hnext⟩ := step_offset (placed_of_sameLaunchData kept hs.placed) hstep
    rw [kept.text] at hlt
    omega

theorem reaches_pc (hs : s.Launch) (h : Reaches s k t) : t.pc = s.base + BitVec.ofNat 64 (4 * k) := by
  obtain ⟨-, hoff⟩ := reaches_offset hs h
  rw [t.pc_eq_base_add_offset, (reaches_sameLaunchData h).base, hoff]

/-- The outcome `End` comes after exactly L steps. -/
theorem step_eq_programEnd_of_reaches (hs : s.Launch) (h : Reaches s k t) :
    step t = .refused .programEnd ↔ k = s.text.length := by
  obtain ⟨-, hoff⟩ := reaches_offset hs h
  rw [step_eq_programEnd, (reaches_sameLaunchData h).text]
  omega

/-- A step before the end that does not complete is a fault or a refusal other than `End`. -/
theorem stopsEarly_of_step_ne_next (hs : s.Launch) (hk : k < s.text.length) (h : Reaches s k t)
    (hstop : ∀ u, step t ≠ .next u) : StopsEarly s k := by
  refine ⟨t, h, ?_⟩
  cases hout : step t with
  | next u => exact absurd hout (hstop u)
  | fault f => exact .inl ⟨f, rfl⟩
  | refused r =>
    refine .inr ⟨r, rfl, ?_⟩
    rintro rfl
    exact hk.ne ((step_eq_programEnd_of_reaches hs h).1 hout)

end Run

/-- Settles O54: after k steps of a run pc is 4k above the base, so `End` is the outcome after L steps and no other number, and a
stop before that is another. -/
theorem everyRunEndsOrStopsWithinItsText : Obligations.EveryRunEndsOrStopsWithinItsText := by
  intro s hs
  refine ⟨?_, fun k t ⟨hr, hend⟩ => (step_eq_programEnd_of_reaches hs hr).1 hend,
    fun k t hr => ⟨(reaches_offset hs hr).1, reaches_pc hs hr⟩⟩
  obtain ⟨t, hr⟩ | ⟨k, hk, t, hr, hstop⟩ := reaches_or_stops s s.text.length
  · exact .inl ⟨t, ⟨hr, (step_eq_programEnd_of_reaches hs hr).2 rfl⟩, reaches_pc hs hr⟩
  · exact .inr ⟨k, hk, stopsEarly_of_step_ne_next hs hk hr hstop⟩

/-! The host's placing of one word (rule R106; log entry 2). -/

/-- The number of a 32-bit word gives that word back. -/
theorem withFetchWord_toNat (s : State) (w : InstrWord) :
    s.withFetchWord 32 w.toNat = { s with base := s.pc, text := .binary [w] } := by
  simp [State.withFetchWord, Nat.mod_eq_of_lt w.isLt]

/-- Settles O47: the placed word is instruction 0 of its text, and pc is at its base. -/
theorem placedWordIsTheNextInstruction : Obligations.PlacedWordIsTheNextInstruction := by
  intro s w i h
  rw [withFetchWord_toNat]
  exact step_of_read_instr (k := 0) (by simp [State.offset]) (by simp [Text.read?, h])

end Sys2Proof.Proofs
end
